-- ==== Sys2Proof/Word.lean ====
section
/-! DEFINITION. The word types of the machine: every value is an unsigned bit vector of a stated width (R8), bit 0 the
least significant (R7). -/

namespace Sys2Proof

/-- One byte of the program text. -/
abbrev Byte := BitVec 8

/-- A 32-bit value: one integer register, an address, an instruction word (R5, R13). -/
abbrev Word := BitVec 32

/-- A 64-bit value: the contents of a register pair (R5, R16). -/
abbrev DWord := BitVec 64

/-- A 5-bit register number, 0 to 31 (R5, R13). -/
abbrev RegNum := BitVec 5

/-- The 6-bit op3 field of an instruction word (R44). -/
abbrev Op3 := BitVec 6

end Sys2Proof
end

