-- ==== Sys2Proof/Config.lean ====
section
/-! DEFINITION. The open parameters of the spec (00_scope R6) as one record, their defaults, and the free 1-bit draws. -/

namespace Sys2Proof

/-- `ODD_PAIR_POLICY`: what an odd number in a pair register field does (R19). -/
inductive OddPairPolicy where
  | refuse
  | trapIllegal
  | alignDown
  | consecutive
  deriving DecidableEq, Repr

/-- `ICC_NVC_POLICY`: what a CC instruction does to N, V and C (R24). -/
inductive IccNvcPolicy where
  | any
  | unchanged
  | v8like
  deriving DecidableEq, Repr

/-- `XNOR_FORMULA`: whether XNORD and XNORDCC compute the complement of the exclusive OR, or the formula the source
prints (R64, R65). -/
inductive XnorFormula where
  | complement
  | literal
  deriving DecidableEq, Repr

/-- `UNUSED_BITS_POLICY`: what non-zero bits 12..6 do (R54). -/
inductive UnusedBitsPolicy where
  | refuse
  | ignore
  deriving DecidableEq, Repr

/-- `PAIR_HIGH_WORD`: which register of a pair holds bits 63..32 (R17). -/
inductive PairHighWord where
  | even
  | odd
  deriving DecidableEq, Repr

/-- The six policy parameters of R6. `TEXT` and `END_PC`, the other two, are fields of the machine's state
(log entry 1). -/
structure Config where
  oddPairPolicy : OddPairPolicy
  iccNvcPolicy : IccNvcPolicy
  /-- `XNORDCC_OP3`; `none` is the value `absent` (R50). -/
  xnordccOp3 : Option Op3
  xnorFormula : XnorFormula
  unusedBitsPolicy : UnusedBitsPolicy
  pairHighWord : PairHighWord
  deriving DecidableEq, Repr

/-- Every parameter at the default of R6. -/
def Config.default : Config where
  oddPairPolicy := .refuse
  iccNvcPolicy := .any
  xnordccOp3 := some 0b010111#6
  xnorFormula := .complement
  unusedBitsPolicy := .refuse
  pairHighWord := .even

/-- The draw `any_1()` of R9: draw number `k` of a run. No body, so nothing can be proved of its value: a claim
about N, V or C after a CC instruction holds for every draw (R24; log entry 6). -/
opaque Config.freeBit : Nat → Bool

end Sys2Proof
end

