-- ==== Sys2Proof/Syntax.lean ====
section
/-! DEFINITION. The syntax of the eleven instructions (R3), one constructor per row of spec/opcode_table.json, in the
source's order, and the same eleven as bare operation names. -/

namespace Sys2Proof

/-- An instruction with its three operands in assembler order: SrcReg1, SrcReg2, DestReg (R56), each the 5-bit number
that names a register pair (R16). -/
inductive Instr where
  | ord (rs1 rs2 rd : RegNum)
  | ordcc (rs1 rs2 rd : RegNum)
  | ordn (rs1 rs2 rd : RegNum)
  | ordncc (rs1 rs2 rd : RegNum)
  | xordcc (rs1 rs2 rd : RegNum)
  | xnord (rs1 rs2 rd : RegNum)
  | xnordcc (rs1 rs2 rd : RegNum)
  | andd (rs1 rs2 rd : RegNum)
  | anddcc (rs1 rs2 rd : RegNum)
  | anddn (rs1 rs2 rd : RegNum)
  | anddncc (rs1 rs2 rd : RegNum)
  deriving DecidableEq, Repr

/-- The operation an instruction performs: a row of the opcode map (R49) without its operands. -/
inductive Opcode where
  | ord
  | ordcc
  | ordn
  | ordncc
  | xordcc
  | xnord
  | xnordcc
  | andd
  | anddcc
  | anddn
  | anddncc
  deriving DecidableEq, Repr

/-- The instruction of an operation and its three operands. -/
def Opcode.instr : Opcode → RegNum → RegNum → RegNum → Instr
  | .ord => .ord
  | .ordcc => .ordcc
  | .ordn => .ordn
  | .ordncc => .ordncc
  | .xordcc => .xordcc
  | .xnord => .xnord
  | .xnordcc => .xnordcc
  | .andd => .andd
  | .anddcc => .anddcc
  | .anddn => .anddn
  | .anddncc => .anddncc

def Instr.opcode : Instr → Opcode
  | .ord _ _ _ => .ord
  | .ordcc _ _ _ => .ordcc
  | .ordn _ _ _ => .ordn
  | .ordncc _ _ _ => .ordncc
  | .xordcc _ _ _ => .xordcc
  | .xnord _ _ _ => .xnord
  | .xnordcc _ _ _ => .xnordcc
  | .andd _ _ _ => .andd
  | .anddcc _ _ _ => .anddcc
  | .anddn _ _ _ => .anddn
  | .anddncc _ _ _ => .anddncc

/-- SrcReg1, the field rs1. -/
def Instr.rs1 : Instr → RegNum
  | .ord a _ _ | .ordcc a _ _ | .ordn a _ _ | .ordncc a _ _ | .xordcc a _ _ | .xnord a _ _ | .xnordcc a _ _
  | .andd a _ _ | .anddcc a _ _ | .anddn a _ _ | .anddncc a _ _ => a

/-- SrcReg2, the field rs2. -/
def Instr.rs2 : Instr → RegNum
  | .ord _ b _ | .ordcc _ b _ | .ordn _ b _ | .ordncc _ b _ | .xordcc _ b _ | .xnord _ b _ | .xnordcc _ b _
  | .andd _ b _ | .anddcc _ b _ | .anddn _ b _ | .anddncc _ b _ => b

/-- DestReg, the field rd. -/
def Instr.rd : Instr → RegNum
  | .ord _ _ d | .ordcc _ _ d | .ordn _ _ d | .ordncc _ _ d | .xordcc _ _ d | .xnord _ _ d | .xnordcc _ _ d
  | .andd _ _ d | .anddcc _ _ d | .anddn _ _ d | .anddncc _ _ d => d

/-- Whether the operation is one of the six that set the condition codes (R3, R22). -/
def Opcode.setsCc : Opcode → Bool
  | .ordcc | .ordncc | .xordcc | .xnordcc | .anddcc | .anddncc => true
  | .ord | .ordn | .xnord | .andd | .anddn => false

end Sys2Proof
end

