-- ==== Sys2Proof/Machine/Operands.lean ====
section
/-! DEFINITION. The one operand form: a 5-bit number that names a register pair, even or odd (R16, R19). -/

namespace Sys2Proof.Machine

/-- A register pair: the register its number names and the register after it. -/
structure Pair where
  first : RegNum
  second : RegNum
  deriving DecidableEq, Repr

/-- The three pair fields of an instruction word. -/
inductive PairField where
  | rd
  | rs1
  | rs2
  deriving DecidableEq, Repr

/-- What one field of a pair number comes to under `ODD_PAIR_POLICY`. -/
inductive PairForm where
  | pair (p : Pair)
  | refuse
  | trap
  deriving DecidableEq, Repr

/-- What the three fields of an instruction come to. -/
inductive Operands where
  | pairs (src1 src2 dest : Pair)
  | refuse (field : PairField)
  | trap
  deriving DecidableEq, Repr

/-- A register number is odd when its bit 0 is 1. -/
def isOdd (n : RegNum) : Bool := n.getLsbD 0

/-- The pair of registers `n` and `n + 1` (R16). -/
def pairAt (n : RegNum) : Pair := ⟨n, n + 1#5⟩

/-- Whether the first register of a pair holds bits 63..32: for an even one `PAIR_HIGH_WORD` says (R17), an odd one does
always (R19, row `consecutive`; log entry 10). -/
def firstIsHigh (high : PairHighWord) (p : Pair) : Bool :=
  match high with
  | .even => true
  | .odd => isOdd p.first

/-- The pair a register number names: `n` and `n + 1` for an even `n` (R16), the row of R19 for an odd one. -/
def pairForm (policy : OddPairPolicy) (n : RegNum) : PairForm :=
  if isOdd n then
    match policy with
    | .refuse => .refuse
    | .trapIllegal => .trap
    | .alignDown => .pair (pairAt (n &&& 0x1E#5))
    | .consecutive => if n = 31#5 then .refuse else .pair (pairAt n)
  else .pair (pairAt n)

/-- The three pairs of an instruction; the fields are tested in the order rd, rs1, rs2 (R75). -/
def operands (policy : OddPairPolicy) (rs1 rs2 rd : RegNum) : Operands :=
  match pairForm policy rd with
  | .refuse => .refuse .rd
  | .trap => .trap
  | .pair d =>
    match pairForm policy rs1 with
    | .refuse => .refuse .rs1
    | .trap => .trap
    | .pair p1 =>
      match pairForm policy rs2 with
      | .refuse => .refuse .rs2
      | .trap => .trap
      | .pair p2 => .pairs p1 p2 d

end Sys2Proof.Machine
end

