-- ==== Sys2Proof/WellFormed.lean ====
section
/-! DEFINITION. Which instruction terms exist under a configuration, and which configurations give every word one
meaning. -/

namespace Sys2Proof

/-- The instruction exists: only XNORDCC can be absent (R50). -/
def Opcode.exists (c : Config) : Opcode → Bool
  | .xnordcc => c.xnordccOp3.isSome
  | .ord | .ordcc | .ordn | .ordncc | .xordcc | .xnord | .andd | .anddcc | .anddn | .anddncc => true

/-- The instruction exists and its three fields name register pairs (R19, R51). -/
def Instr.wf (c : Config) (i : Instr) : Bool :=
  i.opcode.exists c &&
    match Machine.operands c.oddPairPolicy i.rs1 i.rs2 i.rd with
    | .pairs _ _ _ => true
    | .refuse _ => false
    | .trap => false

/-- `XNORDCC_OP3` is not one of the ten op3 values the source gives to other instructions (R49), so that no word
spells two instructions (log entry 11). -/
def Config.op3Distinct (c : Config) : Bool :=
  match c.xnordccOp3 with
  | none => true
  | some y => !([0x02#6, 0x12#6, 0x06#6, 0x16#6, 0x13#6, 0x07#6, 0x01#6, 0x11#6, 0x05#6, 0x15#6].contains y)

end Sys2Proof
end

