-- ==== Sys2Proof/Decode.lean ====
section
/-! DEFINITION. Field extraction (R45), the opcode map (R49, R50), the decoder (R51 to R54), total on 32-bit words and
on bytes, and the encoder (R48, R49). -/

namespace Sys2Proof

/-- The field `insn[hi:lo]` (R7), of `width = hi - lo + 1` bits. -/
def field (insn : Word) (lo width : Nat) : BitVec width := insn.extractLsb' lo width

/-- R45. -/
def opField (insn : Word) : BitVec 2 := field insn 30 2
/-- R45. -/
def rdField (insn : Word) : RegNum := field insn 25 5
/-- R45. -/
def op3Field (insn : Word) : Op3 := field insn 19 6
/-- R45. -/
def rs1Field (insn : Word) : RegNum := field insn 14 5
/-- R45. -/
def iField (insn : Word) : BitVec 1 := field insn 13 1
/-- R45. -/
def unusedField (insn : Word) : BitVec 7 := field insn 6 7
/-- R45. -/
def ajitField (insn : Word) : BitVec 1 := field insn 5 1
/-- R45. -/
def rs2Field (insn : Word) : RegNum := field insn 0 5

/-- The op3 value of each operation (R49; R50 for XNORDCC, which has none when it is absent). -/
def Opcode.op3 (c : Config) : Opcode → Option Op3
  | .ord => some 0b000010#6
  | .ordcc => some 0b010010#6
  | .ordn => some 0b000110#6
  | .ordncc => some 0b010110#6
  | .xordcc => some 0b010011#6
  | .xnord => some 0b000111#6
  | .xnordcc => c.xnordccOp3
  | .andd => some 0b000001#6
  | .anddcc => some 0b010001#6
  | .anddn => some 0b000101#6
  | .anddncc => some 0b010101#6

/-- The order in which the opcode map is searched: the ten rows with an op3 of the source's own, then XNORDCC, so that
an `XNORDCC_OP3` equal to another row's op3 does not take that row away (DESIGN CHOICE, log entry 11). -/
def opcodeOrder : List Opcode :=
  [.ord, .ordcc, .ordn, .ordncc, .xordcc, .xnord, .andd, .anddcc, .anddn, .anddncc, .xnordcc]

/-- The operation an op3 value selects (R49, R50, R53). -/
def lookupOp3 (c : Config) (y : Op3) : Option Opcode :=
  opcodeOrder.find? (fun o => o.op3 c == some y)

/-- What the decoder makes of a word. -/
inductive Decoded where
  /-- One of the eleven instructions. -/
  | instr (i : Instr)
  /-- `refuse OutOfScopeWord` (R52, R53). -/
  | outOfScopeWord
  /-- `refuse UnusedBitsNonZero` (R54). -/
  | unusedBitsNonZero
  /-- `refuse OddPairRegister`, with the first odd field (R19, R75). -/
  | oddPairRegister (f : Machine.PairField)
  /-- `raise illegal_instruction`, under `ODD_PAIR_POLICY = trap_illegal` only (R73). -/
  | illegalInstruction
  /-- Fewer than the four bytes of an instruction word (R43). -/
  | truncated
  deriving DecidableEq, Repr

/-- The decoder of R51, its tests in the order R51 and R75 give. -/
def decodeWord (c : Config) (insn : Word) : Decoded :=
  if opField insn ≠ 2#2 then .outOfScopeWord
  else if iField insn ≠ 0#1 then .outOfScopeWord
  else if ajitField insn ≠ 1#1 then .outOfScopeWord
  else
    match lookupOp3 c (op3Field insn) with
    | none => .outOfScopeWord
    | some o =>
      if unusedField insn ≠ 0#7 ∧ c.unusedBitsPolicy = .refuse then .unusedBitsNonZero
      else
        match Machine.operands c.oddPairPolicy (rs1Field insn) (rs2Field insn) (rdField insn) with
        | .refuse f => .oddPairRegister f
        | .trap => .illegalInstruction
        | .pairs _ _ _ => .instr (o.instr (rs1Field insn) (rs2Field insn) (rdField insn))

/-- The word of four bytes at increasing addresses: the first holds bits 31..24 (R33). -/
def wordOfBytes (b0 b1 b2 b3 : Byte) : Word := b0 ++ b1 ++ b2 ++ b3

/-- The four bytes of a word at increasing addresses (R33). -/
def bytesOfWord (w : Word) : List Byte :=
  [w.extractLsb' 24 8, w.extractLsb' 16 8, w.extractLsb' 8 8, w.extractLsb' 0 8]

/-- The decoder on the bytes of the program text, with the bytes it leaves. -/
def decodeBytes (c : Config) : List Byte → Decoded × List Byte
  | b0 :: b1 :: b2 :: b3 :: rest => (decodeWord c (wordOfBytes b0 b1 b2 b3), rest)
  | rest => (.truncated, rest)

/-- The instruction of a result, if it is one. -/
def Decoded.toOption : Decoded → Option Instr
  | .instr i => some i
  | .outOfScopeWord | .unusedBitsNonZero | .oddPairRegister _ | .illegalInstruction | .truncated => none

/-- The word of a table row: its `nbits` low bits, every bit above them 0. -/
def tableWord (nbits w : Nat) : Word := BitVec.ofNat 32 (w % 2 ^ nbits)

/-- The instruction the decoder reads, under the default parameters, from the word `w` laid out as bytes. -/
def decodeTableWord (nbits w : Nat) : Option Instr :=
  (decodeBytes Config.default (bytesOfWord (tableWord nbits w))).1.toOption

/-- `OP(x)`: `((x) & 0x3) << 30` (R48). -/
def macroOp (x : Word) : Word := (x &&& 0x3#32) <<< 30
/-- `OP3(y)`: `((y) & 0x3f) << 19` (R48). -/
def macroOp3 (y : Word) : Word := (y &&& 0x3F#32) <<< 19
/-- `F3I(z)`: `((z) & 0x1) << 13` (R48). -/
def macroF3I (z : Word) : Word := (z &&& 0x1#32) <<< 13
/-- `OP_AJIT_BIT(a)`: `((a) & 0x1) << 5` (R48). -/
def macroAjitBit (a : Word) : Word := (a &&& 0x1#32) <<< 5
/-- `F4(x, y, z)`, which sets the AJIT bit itself (R48). -/
def macroF4 (x y z : Word) : Word := macroOp x ||| macroOp3 y ||| macroF3I z ||| macroAjitBit 1#32

/-- The word with given op3 and registers: the match word with rd at bit 25, rs1 at bit 14, rs2 at bit 0 (R49). -/
def encodeFields (y : Op3) (rs1 rs2 rd : RegNum) : Word :=
  macroF4 2#32 (y.setWidth 32) 0#32 ||| (rd.setWidth 32 <<< 25) ||| (rs1.setWidth 32 <<< 14) ||| rs2.setWidth 32

/-- The word of an instruction; none for an XNORDCC that is absent (R49, R50). -/
def encodeWord (c : Config) (i : Instr) : Option Word :=
  (i.opcode.op3 c).map (fun y => encodeFields y i.rs1 i.rs2 i.rd)

/-- The words of an instruction as bytes of the program text (R33). -/
def encode (c : Config) (i : Instr) : Option (List Byte) := (encodeWord c i).map bytesOfWord

end Sys2Proof
end

