-- ==== Sys2Proof/Machine/State.lean ====
section
/-! DEFINITION. The state of the machine, the reasons a step can stop, and the state after reset. -/

namespace Sys2Proof.Machine

/-- The four integer condition codes, one bit each (R22). -/
structure Icc where
  n : Bool
  z : Bool
  v : Bool
  c : Bool
  deriving DecidableEq, Repr

/-- The program text as cells of one byte, addresses strictly rising. An unlisted address holds nothing, so it is
outside `TEXT` (R31, R32; log entry 5). -/
abbrev Memory := List Host.Cell

/-- The canonical form: every address is a 32-bit address and they rise strictly. There is no default value of an
unlisted address for a cell to equal. -/
def Memory.wf : Memory → Bool
  | [] => true
  | cell :: rest => decide (cell.1 < 2 ^ 32) && rest.all (fun d => decide (cell.1 < d.1)) && Memory.wf rest

/-- The state: item 2 of section 7 of 00_scope.md, the parameters of R6 that the form of `exec` leaves no other place
for (log entry 1), and the counter of free draws. -/
structure State where
  /-- The six policy parameters of R6. No step changes them. -/
  cfg : Config
  /-- `x[1]` to `x[31]` (R13), `x[n]` at index `n - 1`. `x[0]` has no storage (R14). -/
  x : Vector Word 31
  /-- The address of the instruction being executed (R20). -/
  pc : Word
  /-- The address of the instruction that will execute next (R20). -/
  npc : Word
  /-- N, Z, V and C (R22). -/
  icc : Icc
  /-- `TEXT` (R31). No step changes it (R41). -/
  text : Memory
  /-- `END_PC`, once a claim has supplied it (R88). -/
  endPc : Option Word
  /-- The refused mark (R28). -/
  refused : Bool
  /-- The faulted mark (R28). -/
  faulted : Bool
  /-- How many free draws the run has taken: the model's own field, which makes each `any_1()` fresh (R9; log
  entry 6). -/
  draws : Nat
  deriving DecidableEq, Repr

/-- Why a step answers no next state without being a refusal. -/
inductive Fault where
  /-- `raise illegal_instruction`, with its trap type: the terminal fault of R73, raised by the decoder or a meaning
  for an odd pair field under `ODD_PAIR_POLICY = trap_illegal`. Safe: the run stops. -/
  | illegalInstruction (tt : BitVec 8)
  /-- `pc` is outside `TEXT`, or is not a multiple of 4 and so no address of `TEXT`: the agent has no step (R32, R90).
  Raised by `step`. Safe: the run stops. -/
  | stuckOutsideText
  /-- `pc = END_PC`: the run is final and the agent takes no step (R88). Raised by `step`. Safe: the run stops. -/
  | runIsFinal
  /-- The refused mark is set: there is no further step (R28). Raised by `step`. Safe: the run stops. -/
  | markedRefused
  /-- The faulted mark is set: there is no further step (R28). Raised by `step`. Safe: the run stops. -/
  | markedFaulted
  deriving DecidableEq, Repr

/-- The refusals: the closed list of R72, with what R71 says each records, and the host's own. -/
inductive Refusal where
  /-- An instruction the model has no meaning for. No arm of `exec` answers it. Safe. -/
  | notModelled (mnemonic : String)
  /-- The word is not one of the eleven (R52). Raised by `step`. Safe: the run stops. -/
  | outOfScopeWord (pc word : Word)
  /-- Bits 12..6 are not zero, under `UNUSED_BITS_POLICY = refuse` (R54). Raised by `step`. Safe: the run stops. -/
  | unusedBitsNonZero (pc word : Word)
  /-- A pair field holds an odd number (R19). Raised by `step`, with the word, and by a meaning that is given such an
  instruction without a word (log entry 9). Safe: the run stops. -/
  | oddPairRegister (f : PairField) (pc : Word) (word : Option Word)
  deriving DecidableEq, Repr

/-- The machine right after reset. The spec gives values for `x[0]` and the two marks only (R30); the others are the
model's: registers and flags zero (DESIGN CHOICE, log entries 2 and 4), `pc` and `npc` the family's 0 and 4 (PRESUMED,
log entry 3), the parameters at the defaults of R6, no text and no `END_PC` supplied (log entries 5 and 28). -/
def State.reset : State where
  cfg := Config.default
  x := Vector.replicate 31 0#32
  pc := 0#32
  npc := 4#32
  icc := ⟨false, false, false, false⟩
  text := []
  endPc := none
  refused := false
  faulted := false
  draws := 0

end Sys2Proof.Machine
end

