-- ==== Sys2Proof/Machine/Flags.lean ====
section
/-! DEFINITION. What a CC instruction does to the condition codes (R22 to R24). -/

namespace Sys2Proof.Machine

/-- `SetZ64(res)`: Z is 1 exactly when all 64 bits of the computed result are zero (R23). -/
def State.setZ64 (res : DWord) (s : State) : State :=
  { s with icc := { s.icc with z := res == 0#64 } }

/-- `SetNVC64(res)`: N, V and C by `ICC_NVC_POLICY`; under `any` three fresh free draws (R24). -/
def State.setNVC64 (res : DWord) (s : State) : State :=
  match s.cfg.iccNvcPolicy with
  | .any =>
    { s with
      icc := { s.icc with
        n := Config.freeBit s.draws, v := Config.freeBit (s.draws + 1), c := Config.freeBit (s.draws + 2) }
      draws := s.draws + 3 }
  | .unchanged => s
  | .v8like => { s with icc := { s.icc with n := res.msb, v := false, c := false } }

/-- The place of the four bits in the processor state register: bits 23, 22, 21 and 20 (R22, R25). The model holds no
other field of that register. -/
def Icc.psrField (f : Icc) : BitVec 4 :=
  BitVec.ofBool f.n ++ BitVec.ofBool f.z ++ BitVec.ofBool f.v ++ BitVec.ofBool f.c

end Sys2Proof.Machine
end

