-- ==== Sys2Proof/Machine/Ops.lean ====
section
/-! DEFINITION. The named operations over the program text, the registers, the program counters and the marks, and the
shape all eleven instructions share. -/

namespace Sys2Proof.Machine

/-- The byte at an address; none where nothing is listed. -/
def Memory.read : Memory → Nat → Option Byte
  | [], _ => none
  | cell :: rest, a => if cell.1 = a then some cell.2 else Memory.read rest a

/-- Put a byte at an address, keeping the addresses strictly rising. -/
def Memory.write : Memory → Nat → Byte → Memory
  | [], a, b => [(a, b)]
  | cell :: rest, a, b =>
    if a < cell.1 then (a, b) :: cell :: rest
    else if a = cell.1 then (a, b) :: rest
    else cell :: Memory.write rest a b

/-- `MemRead(addr, n)`: the `n` bytes from `addr` up, addresses modulo 2^32 (R9). -/
def memRead (m : Memory) (addr : Word) : Nat → Option (List Byte)
  | 0 => some []
  | n + 1 =>
    match Memory.read m addr.toNat, memRead m (addr + 1#32) n with
    | some b, some bs => some (b :: bs)
    | _, _ => none

/-- `MemWrite(addr, n, v)`, `v` given as its `n` bytes (R9). No rule in scope uses it; the host's loading of a program
does (R89). -/
def memWrite (m : Memory) (addr : Word) : List Byte → Memory
  | [] => m
  | b :: bs => memWrite (Memory.write m addr.toNat b) (addr + 1#32) bs

/-- `addr[1:0] = 0` (R34). -/
def isAligned (addr : Word) : Bool := addr.extractLsb' 0 2 == 0#2

/-- `TEXT(addr)`: the big-endian word at a 4-byte-aligned address whose four bytes are listed (R31, R33; log
entry 29). -/
def textAt (m : Memory) (addr : Word) : Option Word :=
  if isAligned addr then
    match memRead m addr 4 with
    | some [b0, b1, b2, b3] => some (wordOfBytes b0 b1 b2 b3)
    | _ => none
  else none

/-- The instruction fetch: `TEXT(pc)` (R32). -/
def State.fetch (s : State) : Option Word := textAt s.text s.pc

/-- `x[n]`: register 0 reads zero (R14). -/
def State.readReg (s : State) (n : RegNum) : Word :=
  if n = 0#5 then 0#32 else s.x[n.toNat - 1]'(by have := n.isLt; omega)

/-- `x[n] <- v`: a write of register 0 is discarded (R14). -/
def State.writeReg (n : RegNum) (v : Word) (s : State) : State :=
  if n = 0#5 then s else { s with x := s.x.set (n.toNat - 1) v (by have := n.isLt; omega) }

/-- `PairRead`: 64 bits, the first register of the pair high or low (R17, R19). -/
def State.pairRead (s : State) (p : Pair) : DWord :=
  if firstIsHigh s.cfg.pairHighWord p then s.readReg p.first ++ s.readReg p.second
  else s.readReg p.second ++ s.readReg p.first

/-- `PairWrite`: both registers of the pair, each its half (R17, R18, R19). -/
def State.pairWrite (p : Pair) (v : DWord) (s : State) : State :=
  if firstIsHigh s.cfg.pairHighWord p then
    (s.writeReg p.first (v.extractLsb' 32 32)).writeReg p.second (v.extractLsb' 0 32)
  else (s.writeReg p.second (v.extractLsb' 32 32)).writeReg p.first (v.extractLsb' 0 32)

/-- `Advance()` (R21). -/
def State.advance (s : State) : State := { s with pc := s.npc, npc := s.npc + 4#32 }

/-- `raise illegal_instruction`, trap type 0x02: a terminal fault that writes nothing (R73). The spec models no trap
entry (R76) and no trap return (R77). -/
def raiseIllegal : Host.Outcome State Fault Refusal := .fault (.illegalInstruction 0x02#8)

/-- The shape of the eleven instructions: the pair fields are resolved before any register is read (R19); then both
sources are read, the result is computed and written, the flags are written where `cc` says so, and the program
counters advance (R59 to R69). Every read is of the state before the step (R10). -/
def pairOp (f : DWord → DWord → DWord) (cc : Bool) (rs1 rs2 rd : RegNum) (s : State) :
    Host.Outcome State Fault Refusal :=
  match operands s.cfg.oddPairPolicy rs1 rs2 rd with
  | .refuse fld => .refused (.oddPairRegister fld s.pc none)
  | .trap => raiseIllegal
  | .pairs p1 p2 d =>
    let res := f (s.pairRead p1) (s.pairRead p2)
    let written := s.pairWrite d res
    let flagged := if cc then (written.setZ64 res).setNVC64 res else written
    .next flagged.advance

/-- What the decoder's answer is as an outcome of a step at `pc` with the word fetched: an instruction runs by `run`,
anything else stops with what R71 says it records. -/
def dispatchDecoded (run : Instr → State → Host.Outcome State Fault Refusal) (w : Word) (s : State) :
    Decoded → Host.Outcome State Fault Refusal
  | .instr i => run i s
  | .outOfScopeWord => .refused (.outOfScopeWord s.pc w)
  | .unusedBitsNonZero => .refused (.unusedBitsNonZero s.pc w)
  | .oddPairRegister f => .refused (.oddPairRegister f s.pc (some w))
  | .illegalInstruction => raiseIllegal
  | .truncated => .fault .stuckOutsideText

/-- The state an outcome leaves, as R28 and R72 give it: a refusal sets `refused` and changes nothing else, the raise of
R73 sets `faulted` and changes nothing else; where there is no step there is no state (R28, R88, R90). -/
def stateAfter (s : State) : Host.Outcome State Fault Refusal → Option State
  | .next t => some t
  | .refused _ => some { s with refused := true }
  | .fault (.illegalInstruction _) => some { s with faulted := true }
  | .fault .stuckOutsideText => none
  | .fault .runIsFinal => none
  | .fault .markedRefused => none
  | .fault .markedFaulted => none

/-- The state with an instruction word placed at `pc` (R33), ready to run it: no mark is set and `END_PC` is not here
(log entry 33). -/
def State.placeWord (w : Word) (s : State) : State :=
  { s with
    text := memWrite s.text s.pc (bytesOfWord w)
    endPc := if s.endPc = some s.pc then none else s.endPc
    refused := false
    faulted := false }

end Sys2Proof.Machine
end

