-- ==== Sys2Proof/Machine/AndPair.lean ====
section
/-! DEFINITION. The AND group (spec 42_and_pair.md): ANDD, ANDDCC, ANDDN, ANDDNCC. -/

namespace Sys2Proof.Machine

/-- ANDD (R66). -/
def execAndd (rs1 rs2 rd : RegNum) (s : State) : Host.Outcome State Fault Refusal :=
  pairOp (fun a b => a &&& b) false rs1 rs2 rd s

/-- ANDDCC (R67). -/
def execAnddcc (rs1 rs2 rd : RegNum) (s : State) : Host.Outcome State Fault Refusal :=
  pairOp (fun a b => a &&& b) true rs1 rs2 rd s

/-- ANDDN: only the second operand is complemented (R68). -/
def execAnddn (rs1 rs2 rd : RegNum) (s : State) : Host.Outcome State Fault Refusal :=
  pairOp (fun a b => a &&& ~~~b) false rs1 rs2 rd s

/-- ANDDNCC (R69). -/
def execAnddncc (rs1 rs2 rd : RegNum) (s : State) : Host.Outcome State Fault Refusal :=
  pairOp (fun a b => a &&& ~~~b) true rs1 rs2 rd s

end Sys2Proof.Machine
end

