-- ==== Sys2Proof/Machine/OrPair.lean ====
section
/-! DEFINITION. The OR group (spec 40_or_pair.md): ORD, ORDCC, ORDN, ORDNCC. -/

namespace Sys2Proof.Machine

/-- ORD (R59). -/
def execOrd (rs1 rs2 rd : RegNum) (s : State) : Host.Outcome State Fault Refusal :=
  pairOp (fun a b => a ||| b) false rs1 rs2 rd s

/-- ORDCC (R60). -/
def execOrdcc (rs1 rs2 rd : RegNum) (s : State) : Host.Outcome State Fault Refusal :=
  pairOp (fun a b => a ||| b) true rs1 rs2 rd s

/-- ORDN: only the second operand is complemented (R61). -/
def execOrdn (rs1 rs2 rd : RegNum) (s : State) : Host.Outcome State Fault Refusal :=
  pairOp (fun a b => a ||| ~~~b) false rs1 rs2 rd s

/-- ORDNCC (R62). -/
def execOrdncc (rs1 rs2 rd : RegNum) (s : State) : Host.Outcome State Fault Refusal :=
  pairOp (fun a b => a ||| ~~~b) true rs1 rs2 rd s

end Sys2Proof.Machine
end

