-- ==== Sys2Proof/Machine/XorPair.lean ====
section
/-! DEFINITION. The exclusive OR group (spec 41_xor_pair.md): XORDCC, XNORD, XNORDCC. The source has no XORD (R53). -/

namespace Sys2Proof.Machine

/-- The operation of XNORD and XNORDCC by `XNOR_FORMULA` (R64). -/
def xnor (formula : XnorFormula) (a b : DWord) : DWord :=
  match formula with
  | .complement => ~~~(a ^^^ b)
  | .literal => a ^^^ b

/-- XORDCC (R63). -/
def execXordcc (rs1 rs2 rd : RegNum) (s : State) : Host.Outcome State Fault Refusal :=
  pairOp (fun a b => a ^^^ b) true rs1 rs2 rd s

/-- XNORD (R64). -/
def execXnord (rs1 rs2 rd : RegNum) (s : State) : Host.Outcome State Fault Refusal :=
  pairOp (xnor s.cfg.xnorFormula) false rs1 rs2 rd s

/-- XNORDCC (R65). Under `XNORDCC_OP3 = absent` no word decodes to it (log entry 18). -/
def execXnordcc (rs1 rs2 rd : RegNum) (s : State) : Host.Outcome State Fault Refusal :=
  pairOp (xnor s.cfg.xnorFormula) true rs1 rs2 rd s

end Sys2Proof.Machine
end

