-- ==== Sys2Proof/Machine/Dispatch.lean ====
section
/-! DEFINITION. One arm per instruction, each one call of its meaning. -/

namespace Sys2Proof.Machine

def exec (i : Instr) (s : State) : Host.Outcome State Fault Refusal :=
  match i with
  | .ord rs1 rs2 rd => Sys2Proof.Machine.execOrd rs1 rs2 rd s
  | .ordcc rs1 rs2 rd => Sys2Proof.Machine.execOrdcc rs1 rs2 rd s
  | .ordn rs1 rs2 rd => Sys2Proof.Machine.execOrdn rs1 rs2 rd s
  | .ordncc rs1 rs2 rd => Sys2Proof.Machine.execOrdncc rs1 rs2 rd s
  | .xordcc rs1 rs2 rd => Sys2Proof.Machine.execXordcc rs1 rs2 rd s
  | .xnord rs1 rs2 rd => Sys2Proof.Machine.execXnord rs1 rs2 rd s
  | .xnordcc rs1 rs2 rd => Sys2Proof.Machine.execXnordcc rs1 rs2 rd s
  | .andd rs1 rs2 rd => Sys2Proof.Machine.execAndd rs1 rs2 rd s
  | .anddcc rs1 rs2 rd => Sys2Proof.Machine.execAnddcc rs1 rs2 rd s
  | .anddn rs1 rs2 rd => Sys2Proof.Machine.execAnddn rs1 rs2 rd s
  | .anddncc rs1 rs2 rd => Sys2Proof.Machine.execAnddncc rs1 rs2 rd s

end Sys2Proof.Machine
end

