-- ==== Sys2Proof/Machine/Step.lean ====
section
/-! DEFINITION. One step of the machine (R10): no step from a marked state (R28) or from a final one (R88), else fetch
(R32), decode (R51) and execute. -/

namespace Sys2Proof.Machine

def step (s : State) : Host.Outcome State Fault Refusal :=
  if s.refused then .fault .markedRefused
  else if s.faulted then .fault .markedFaulted
  else if s.endPc = some s.pc then .fault .runIsFinal
  else
    match s.fetch with
    | none => .fault .stuckOutsideText
    | some w => dispatchDecoded exec w s (decodeWord s.cfg w)

/-- The state that runs the table word `w` as its very next step: the word stands at `pc` (log entry 33). -/
def State.withFetchWord (s : State) (nbits w : Nat) : State := s.placeWord (tableWord nbits w)

end Sys2Proof.Machine
end

