-- ==== Sys2Proof/Machine/Asm.lean ====
section
/-! DEFINITION. The assembler's view: register names (R15), mnemonics and operand order (R56, R57), disassembly (R58). -/

namespace Sys2Proof

/-- The mnemonic, in lower case (R57). -/
def Opcode.mnemonic : Opcode → String
  | .ord => "ord"
  | .ordcc => "ordcc"
  | .ordn => "ordn"
  | .ordncc => "ordncc"
  | .xordcc => "xordcc"
  | .xnord => "xnord"
  | .xnordcc => "xnordcc"
  | .andd => "andd"
  | .anddcc => "anddcc"
  | .anddn => "anddn"
  | .anddncc => "anddncc"

/-- `%rN` (R15). -/
def regName (n : RegNum) : String := "%r" ++ Nat.repr n.toNat

/-- `%g0` to `%g7`, `%o0` to `%o7`, `%l0` to `%l7`, `%i0` to `%i7` (R15). -/
def groupName (n : RegNum) : String :=
  (if n.toNat < 8 then "%g" else if n.toNat < 16 then "%o" else if n.toNat < 24 then "%l" else "%i")
    ++ Nat.repr (n.toNat % 8)

/-- The register an assembler name spells: `%rN`, a group name, `%sp` for `%o6`, `%fp` for `%i6` (R15). -/
def regOfName (name : String) : Option RegNum :=
  if name = "%sp" then some 14#5
  else if name = "%fp" then some 30#5
  else ((List.range 32).map (BitVec.ofNat 5)).find? (fun n => regName n = name || groupName n = name)

/-- The instruction a line `mnemonic SrcReg1, SrcReg2, DestReg` stands for, its register numbers unchanged (R56). -/
def assemble (mnemonic : String) (srcReg1 srcReg2 destReg : RegNum) : Option Instr :=
  (opcodeOrder.find? (fun o => o.mnemonic = mnemonic)).map (fun o => o.instr srcReg1 srcReg2 destReg)

/-- `mnemonic %r<rs1>, %r<rs2>, %r<rd>` (R58). -/
def disassemble (i : Instr) : String :=
  i.opcode.mnemonic ++ " " ++ regName i.rs1 ++ ", " ++ regName i.rs2 ++ ", " ++ regName i.rd

end Sys2Proof
end

