-- ==== Sys2Proof/Safety.lean ====
section
/-! DEFINITION. The launch premises (R86), final and stuck states (R88, R90), the invariant of every step (R34), and what
a run is, in the terms claims use. -/

namespace Sys2Proof.Machine

/-- `LaunchAligned` (R86). -/
def State.launchAligned (s : State) : Bool := isAligned s.pc && isAligned s.npc

/-- `LaunchSequential` (R86): a claim about code entered through a delay slot drops it (R92). -/
def State.launchSequential (s : State) : Bool := s.npc == s.pc + 4#32

/-- `LaunchInText` (R86). -/
def State.launchInText (s : State) : Bool := s.fetch.isSome

/-- `LaunchNotRefused` (R86). -/
def State.launchNotRefused (s : State) : Bool := !s.refused && !s.faulted

/-- The run is final: `pc = END_PC` and neither mark is set (R88). -/
def State.isFinal (s : State) : Bool := decide (s.endPc = some s.pc) && s.launchNotRefused

/-- The state is stuck: `pc` is outside `TEXT`, it is not `END_PC`, and neither mark is set (R90). -/
def State.isStuck (s : State) : Bool :=
  s.fetch.isNone && !decide (s.endPc = some s.pc) && s.launchNotRefused

/-- The text is in its canonical form and both program counters are multiples of 4 (R34). -/
def State.Inv (s : State) : Prop :=
  Memory.wf s.text = true ∧ isAligned s.pc = true ∧ isAligned s.npc = true

/-- The successor of a state where it has one, the marks of R28 included: a refusal or the raise of R73 leads to a marked
state, and a marked, stuck or final state leads nowhere. -/
def State.successor (s : State) : Option State := stateAfter s (step s)

/-- `k` steps, each to a next state, lead from `s` to `t`. -/
def Runs (k : Nat) (s t : State) : Prop := Host.Core.run Sys2Proof.core k s = .next t

end Sys2Proof.Machine
end

