-- ==== Sys2Proof/Certificates/Slice0/Obligations.lean ====
section
/-! DEFINITION. The statements for the provers. Each says what an instruction or the machine does, in the words of the
rule its docstring names. -/

namespace Sys2Proof.Claims

open Sys2Proof.Machine

/-- A register number is even (R16). -/
def EvenReg (n : RegNum) : Prop := n.toNat % 2 = 0

/-- Register `n` of the pair `n`, `n + 1` holds bits 63..32: always for an odd `n` (R19), by `PAIR_HIGH_WORD` for an
even one (R17). -/
abbrev FirstIsHigh (c : Config) (n : RegNum) : Prop := c.pairHighWord = .even ∨ n.toNat % 2 = 1

/-- The 64-bit value of the pair whose registers are `n` and `n + 1` (R17, R19). -/
def pairValue (s : State) (n : RegNum) : DWord :=
  if FirstIsHigh s.cfg n then s.readReg n ++ s.readReg (n + 1#5) else s.readReg (n + 1#5) ++ s.readReg n

/-- The 32 bits of a 64-bit value that register `n` of the pair `n`, `n + 1` holds (R17 to R19). -/
def halfOfFirst (c : Config) (n : RegNum) (v : DWord) : Word :=
  if FirstIsHigh c n then v.extractLsb' 32 32 else v.extractLsb' 0 32

/-- The 32 bits that register `n + 1` holds (R17 to R19). -/
def halfOfSecond (c : Config) (n : RegNum) (v : DWord) : Word :=
  if FirstIsHigh c n then v.extractLsb' 0 32 else v.extractLsb' 32 32

/-- All 32 registers after the pair `n`, `n + 1` was written with `v` and nothing else was (R14, R18). -/
def PairWritten (s t : State) (n : RegNum) (v : DWord) : Prop :=
  ∀ r : RegNum, t.readReg r =
    if r = 0#5 then 0#32
    else if r = n then halfOfFirst s.cfg n v
    else if r = n + 1#5 then halfOfSecond s.cfg n v
    else s.readReg r

/-- The program counters after one instruction (R21). -/
def Advanced (s t : State) : Prop := t.pc = s.npc ∧ t.npc = s.npc + 4#32

/-- What no instruction changes: every byte of the text, the parameters, `END_PC` and the marks (R28, R29, R41). -/
def RestKept (s t : State) : Prop :=
  (∀ a : Nat, Memory.read t.text a = Memory.read s.text a) ∧
    t.cfg = s.cfg ∧ t.endPc = s.endPc ∧ t.refused = s.refused ∧ t.faulted = s.faulted

/-- N, Z, V and C unchanged, and no free draw taken (R22). -/
def FlagsKept (s t : State) : Prop := t.icc = s.icc ∧ t.draws = s.draws

/-- Z from all 64 bits of the result (R23), and N, V, C by `ICC_NVC_POLICY` (R24): three draws that no earlier
instruction took, or unchanged, or N the top bit of the result with V and C clear. -/
def FlagsSetBy (s t : State) (res : DWord) : Prop :=
  (t.icc.z = true ↔ res = 0#64) ∧
    match s.cfg.iccNvcPolicy with
    | .any =>
      t.icc.n = Config.freeBit s.draws ∧ t.icc.v = Config.freeBit (s.draws + 1) ∧
        t.icc.c = Config.freeBit (s.draws + 2) ∧ t.draws = s.draws + 3
    | .unchanged => t.icc.n = s.icc.n ∧ t.icc.v = s.icc.v ∧ t.icc.c = s.icc.c ∧ t.draws = s.draws
    | .v8like => t.icc.n = res.getLsbD 63 ∧ t.icc.v = false ∧ t.icc.c = false ∧ t.draws = s.draws

/-- An instruction with three even register numbers completes, from every state: it writes `f` of its source pairs to
its destination pair, keeps the flags, advances the counters, and changes nothing else. -/
def CompletesPlain (mk : RegNum → RegNum → RegNum → Instr) (f : Config → DWord → DWord → DWord) : Prop :=
  ∀ (s : State) (rs1 rs2 rd : RegNum), EvenReg rs1 → EvenReg rs2 → EvenReg rd →
    ∃ t, exec (mk rs1 rs2 rd) s = .next t ∧
      PairWritten s t rd (f s.cfg (pairValue s rs1) (pairValue s rs2)) ∧
      FlagsKept s t ∧ Advanced s t ∧ RestKept s t

/-- The same for an instruction that sets the condition codes from its result. -/
def CompletesCc (mk : RegNum → RegNum → RegNum → Instr) (f : Config → DWord → DWord → DWord) : Prop :=
  ∀ (s : State) (rs1 rs2 rd : RegNum), EvenReg rs1 → EvenReg rs2 → EvenReg rd →
    ∃ t, exec (mk rs1 rs2 rd) s = .next t ∧
      PairWritten s t rd (f s.cfg (pairValue s rs1) (pairValue s rs2)) ∧
      FlagsSetBy s t (f s.cfg (pairValue s rs1) (pairValue s rs2)) ∧ Advanced s t ∧ RestKept s t

/-- Exclusive NOR by `XNOR_FORMULA`: the complement of the exclusive OR, or the formula the source prints. -/
def xnorBy (c : Config) (a b : DWord) : DWord :=
  if c.xnorFormula = .complement then ~~~(a ^^^ b) else a ^^^ b

/-- What each operation computes (R59 to R69). -/
def resultOf (c : Config) (o : Opcode) (a b : DWord) : DWord :=
  match o with
  | .ord | .ordcc => a ||| b
  | .ordn | .ordncc => a ||| ~~~b
  | .xordcc => a ^^^ b
  | .xnord | .xnordcc => xnorBy c a b
  | .andd | .anddcc => a &&& b
  | .anddn | .anddncc => a &&& ~~~b

/-- The eleven match words of the opcode map (R49). -/
def matchWords : List Word :=
  [0x80100020#32, 0x80900020#32, 0x80300020#32, 0x80B00020#32, 0x80980020#32, 0x80380020#32, 0x80B80020#32,
    0x80080020#32, 0x80880020#32, 0x80280020#32, 0x80A80020#32]

/-- Under the policy, the number names no pair and is refused for it (R19): an odd one under `refuse`, 31 under
`consecutive`. -/
def Unpaired (c : Config) (n : RegNum) : Prop :=
  (c.oddPairPolicy = .refuse ∧ ¬EvenReg n) ∨ (c.oddPairPolicy = .consecutive ∧ n = 31#5)

/-- The word of the instruction, but for bits 12..6 (R49, R54). -/
def SpellsUpToUnused (c : Config) (w : Word) (i : Instr) : Prop := encodeWord c i = some (w &&& 0xFFFFE03F#32)

/-- Bits 12..6 do not refuse the word (R54). -/
def UnusedAccepted (c : Config) (w : Word) : Prop := c.unusedBitsPolicy = .ignore ∨ w &&& 0x00001FC0#32 = 0#32

/-- No mark is set and the run is not final, so the step fetches (R28, R88). -/
def Running (s : State) : Prop := s.refused = false ∧ s.faulted = false ∧ s.endPc ≠ some s.pc

end Sys2Proof.Claims

section Statements

open Sys2Proof Sys2Proof.Machine Sys2Proof.Claims

/-! ### The eleven instructions

What each computes is its item's own semantics line. That a pair is `n` and `n + 1`, which register holds the high half,
that register 0 is zero, how the counters advance, what "sets Z" tests and what becomes of N, V and C are the spec's own
decisions (D2, D4, D6, D7, D9; log entries 6, 12, 13, 14 and 17). -/

/-- R59. -/
def Obligations.OrdWritesBitwiseOr : Prop := CompletesPlain .ord (fun _ a b => a ||| b)

/-- R60. -/
def Obligations.OrdccWritesOrAndSetsFlags : Prop := CompletesCc .ordcc (fun _ a b => a ||| b)

/-- R61. -/
def Obligations.OrdnWritesOrWithComplement : Prop := CompletesPlain .ordn (fun _ a b => a ||| ~~~b)

/-- R62. -/
def Obligations.OrdnccWritesOrComplementSetsFlags : Prop := CompletesCc .ordncc (fun _ a b => a ||| ~~~b)

/-- R63. -/
def Obligations.XordccWritesXorAndSetsFlags : Prop := CompletesCc .xordcc (fun _ a b => a ^^^ b)

/-- R64; that the result is the complement is the spec's decision D11 (log entry 19). -/
def Obligations.XnordWritesXnorByFormula : Prop := CompletesPlain .xnord xnorBy

/-- R65; that the result is the complement is the spec's decision D11 (log entry 19). That `exec` completes under
`XNORDCC_OP3 = absent` too, where R50 and R65 say the instruction does not exist and no word decodes to it, is the
model's choice (DESIGN CHOICE, log entry 18). -/
def Obligations.XnordccWritesXnorAndSetsFlags : Prop := CompletesCc .xnordcc xnorBy

/-- R66. -/
def Obligations.AnddWritesBitwiseAnd : Prop := CompletesPlain .andd (fun _ a b => a &&& b)

/-- R67. -/
def Obligations.AnddccWritesAndSetsFlags : Prop := CompletesCc .anddcc (fun _ a b => a &&& b)

/-- R68. -/
def Obligations.AnddnClearsBitsOfSecond : Prop := CompletesPlain .anddn (fun _ a b => a &&& ~~~b)

/-- R69. -/
def Obligations.AnddnccClearsBitsAndSetsFlags : Prop := CompletesCc .anddncc (fun _ a b => a &&& ~~~b)

/-- What Z tests, register by register: the corner cases of R60, R62, R63, R65, R67 and R69. Reading "sets Z" as a test
of all 64 bits is the spec's decision D6, the complement in XNORDCC its decision D11, that the pair of `a` is `a` and
`a + 1` its decision D4, that register 0 reads zero its decision D2 (log entries 12, 13, 17 and 19). That `exec` of
XNORDCC completes under `XNORDCC_OP3 = absent` too, where R50 and R65 say the instruction does not exist, is the model's
choice (DESIGN CHOICE, log entry 18). -/
def Obligations.ZeroFlagTestsOfCcInstructions : Prop :=
  ∀ (s : State) (a b d : RegNum), EvenReg a → EvenReg b → EvenReg d →
    (∃ t, exec (.ordcc a b d) s = .next t ∧
      (t.icc.z = true ↔ s.readReg a = 0#32 ∧ s.readReg (a + 1#5) = 0#32 ∧
        s.readReg b = 0#32 ∧ s.readReg (b + 1#5) = 0#32)) ∧
    (∃ t, exec (.ordncc a b d) s = .next t ∧
      (t.icc.z = true ↔ s.readReg a = 0#32 ∧ s.readReg (a + 1#5) = 0#32 ∧
        s.readReg b = 0xFFFFFFFF#32 ∧ s.readReg (b + 1#5) = 0xFFFFFFFF#32)) ∧
    (∃ t, exec (.xordcc a b d) s = .next t ∧
      (t.icc.z = true ↔ s.readReg a = s.readReg b ∧ s.readReg (a + 1#5) = s.readReg (b + 1#5))) ∧
    (∃ t, exec (.xnordcc a b d) s = .next t ∧
      (s.cfg.xnorFormula = .complement →
        (t.icc.z = true ↔ s.readReg b = ~~~s.readReg a ∧ s.readReg (b + 1#5) = ~~~s.readReg (a + 1#5)))) ∧
    (∃ t, exec (.anddcc a b d) s = .next t ∧
      (t.icc.z = true ↔ s.readReg a &&& s.readReg b = 0#32 ∧
        s.readReg (a + 1#5) &&& s.readReg (b + 1#5) = 0#32)) ∧
    (∃ t, exec (.anddncc a b d) s = .next t ∧
      (t.icc.z = true ↔ s.readReg a ||| s.readReg b = s.readReg b ∧
        s.readReg (a + 1#5) ||| s.readReg (b + 1#5) = s.readReg (b + 1#5)))

/-- The idioms of R57: with `x[1]` zero, ORD with register 0 copies a pair and XNORD with register 0 complements one
(under the spec's decision D11, log entry 19); ANDDN of a pair with itself clears the destination. Register 0 and the
pairing are the decisions D2 and D4 (log entries 12 and 13). -/
def Obligations.IdiomsCopyComplementAndClear : Prop :=
  ∀ (s : State) (a d : RegNum), EvenReg a → EvenReg d →
    (s.readReg 1#5 = 0#32 → ∃ t, exec (.ord a 0#5 d) s = .next t ∧ PairWritten s t d (pairValue s a)) ∧
    (s.readReg 1#5 = 0#32 → s.cfg.xnorFormula = .complement →
      ∃ t, exec (.xnord a 0#5 d) s = .next t ∧ PairWritten s t d (~~~(pairValue s a))) ∧
    ∃ t, exec (.anddn a a d) s = .next t ∧ PairWritten s t d 0#64

/-! ### What holds of every instruction -/

/-- R29 under every policy: an instruction that completes changes only the two registers of the pair its rd field names,
the flags if it is a CC instruction, and the counters. The frame rule is the spec's decision D32 (log entry 26). -/
def Obligations.EveryInstructionKeepsItsFrame : Prop :=
  ∀ (i : Instr) (s t : State), exec i s = .next t →
    (∃ p, pairForm s.cfg.oddPairPolicy i.rd = .pair p ∧
      ∀ r, r ≠ p.first → r ≠ p.second → t.readReg r = s.readReg r) ∧
    (i.opcode.setsCc = false → FlagsKept s t) ∧ Advanced s t ∧ RestKept s t

/-- R35: no byte of memory changes, and none is read, since the outcome does not depend on what the memory holds. -/
def Obligations.NoInstructionTouchesMemory : Prop :=
  ∀ (i : Instr) (s t : State), exec i s = .next t →
    (∀ a, Memory.read t.text a = Memory.read s.text a) ∧
    ∀ m : Memory, exec i { s with text := m } = .next { t with text := m }

/-- R37: no instruction reads a program counter, so the same code does the same at every address. The form of the
counters is the spec's decision D9 (log entry 14). -/
def Obligations.CountersDoNotInfluenceResults : Prop :=
  ∀ (i : Instr) (s t : State) (p q : Word), exec i s = .next t →
    exec i { s with pc := p, npc := q } = .next { t with pc := q, npc := q + 4#32 }

/-- R22: no instruction reads a condition code. -/
def Obligations.ConditionCodesAreNeverRead : Prop :=
  ∀ (i : Instr) (s t : State) (f : Icc), exec i s = .next t →
    ∃ t', exec i { s with icc := f } = .next t' ∧ (∀ r, t'.readReg r = t.readReg r) ∧
      t'.pc = t.pc ∧ t'.npc = t.npc ∧ (i.opcode.setsCc = true → t'.icc.z = t.icc.z)

/-- R17: which register of a pair is the high half shows in no register and not in Z, and in N only under `v8like` for
an even destination. Under `consecutive` this is said where the three numbers are all even or all odd: an odd pair has
fixed halves (R19), so a mixture shows the choice, with the values of `OddFieldNamesConsecutivePair`. That R19 is
followed there over the general words of R6 and R17 is the model's reading (log entry 10). -/
def Obligations.HighHalfChoiceIsInvisible : Prop :=
  ∀ (i : Instr) (s t : State) (h : PairHighWord), exec i s = .next t →
    (s.cfg.oddPairPolicy = .consecutive →
      i.rs1.toNat % 2 = i.rd.toNat % 2 ∧ i.rs2.toNat % 2 = i.rd.toNat % 2) →
    ∃ t', exec i { s with cfg := { s.cfg with pairHighWord := h } } = .next t' ∧
      (∀ r, t'.readReg r = t.readReg r) ∧ t'.icc.z = t.icc.z ∧ t'.icc.v = t.icc.v ∧ t'.icc.c = t.icc.c ∧
      (s.cfg.iccNvcPolicy ≠ .v8like ∨ (s.cfg.oddPairPolicy = .consecutive ∧ ¬EvenReg i.rd) →
        t'.icc.n = t.icc.n) ∧
      t'.pc = t.pc ∧ t'.npc = t.npc

/-- The last paragraph of 92_eei_decisions.md: a word accepted under the refusing defaults means the same instruction,
with the same registers, Z and counters after it, under every setting of the three policies. -/
def Obligations.RefusingDefaultsHoldForEverySetting : Prop :=
  ∀ (s : State) (w : Word) (i : Instr) (odd : OddPairPolicy) (nvc : IccNvcPolicy) (unused : UnusedBitsPolicy),
    s.cfg.oddPairPolicy = .refuse → s.cfg.unusedBitsPolicy = .refuse → decodeWord s.cfg w = .instr i →
    let c : Config := { s.cfg with oddPairPolicy := odd, iccNvcPolicy := nvc, unusedBitsPolicy := unused }
    decodeWord c w = .instr i ∧
      ∃ t t', exec i s = .next t ∧ exec i { s with cfg := c } = .next t' ∧
        (∀ r, t'.readReg r = t.readReg r) ∧ t'.icc.z = t.icc.z ∧ t'.pc = t.pc ∧ t'.npc = t.npc

/-- R14: register 0 reads zero and a write to it changes nothing. Hardwiring it is the spec's decision D2 (log
entry 12). -/
def Obligations.RegisterZeroIsHardwired : Prop :=
  ∀ (s : State) (v : Word), s.readReg 0#5 = 0#32 ∧ s.writeReg 0#5 v = s

/-! ### Odd register numbers -/

/-- R19 and R75 under `refuse`: the first odd field, in the order rd, rs1, rs2, is reported. The policy is the spec's
decision D5; that the record of `exec` alone holds no word is the model's choice (log entries 9 and 20). -/
def Obligations.OddFieldIsRefused : Prop :=
  ∀ (i : Instr) (s : State), s.cfg.oddPairPolicy = .refuse →
    (¬EvenReg i.rd → exec i s = .refused (.oddPairRegister .rd s.pc none)) ∧
    (EvenReg i.rd → ¬EvenReg i.rs1 → exec i s = .refused (.oddPairRegister .rs1 s.pc none)) ∧
    (EvenReg i.rd → EvenReg i.rs1 → ¬EvenReg i.rs2 → exec i s = .refused (.oddPairRegister .rs2 s.pc none))

/-- R19, R73 and R75 under `trap_illegal`: a step that fetches a word of the group with accepted unused bits and an odd
field raises illegal_instruction, trap type 2, which leads to the state with the faulted mark and no further; so does
`exec` of an instruction with an odd field. The spec's decisions D5, D12 and D23 (log entries 8, 9, 20 and 21). -/
def Obligations.OddFieldRaisesUnderTrapPolicy : Prop :=
  ∀ s : State, s.cfg.oddPairPolicy = .trapIllegal →
    ∀ i : Instr, (¬EvenReg i.rs1 ∨ ¬EvenReg i.rs2 ∨ ¬EvenReg i.rd) →
      exec i s = .fault (.illegalInstruction 0x02#8) ∧
      ∀ w : Word, Running s → s.fetch = some w → SpellsUpToUnused s.cfg w i → UnusedAccepted s.cfg w →
        step s = .fault (.illegalInstruction 0x02#8) ∧ s.successor = some { s with faulted := true } ∧
        ({ s with faulted := true } : State).successor = none

/-- R19 under `align_down`: the low bit of each field is ignored (D5, log entry 20). -/
def Obligations.OddFieldIsAlignedDown : Prop :=
  ∀ (o : Opcode) (rs1 rs2 rd : RegNum) (s : State), s.cfg.oddPairPolicy = .alignDown →
    exec (o.instr rs1 rs2 rd) s = exec (o.instr (rs1 &&& 0x1E#5) (rs2 &&& 0x1E#5) (rd &&& 0x1E#5)) s

/-- R19 under `consecutive`: a field other than 31 names `n` and `n + 1`, an odd `n` being the high half whatever
`PAIR_HIGH_WORD` says, with every source read before the write, and 31 is refused. What each operation computes is its
item (R59 to R69; D11, log entry 19); register 0, the pairing, the policy, the flags, the counters, the frame and the
order are the spec's decisions D2, D4, D5, D6, D7, D9, D32 and D33 (log entries 6, 12 to 14, 17, 20 and 26); following R19 for the halves is the model's
reading (log entry 10), and that the refusal of `exec` holds no word is its choice (log entry 9). That `exec` of XNORDCC
completes under `XNORDCC_OP3 = absent` too, where R50 and R65 say the instruction does not exist, is the model's choice
(DESIGN CHOICE, log entry 18). -/
def Obligations.OddFieldNamesConsecutivePair : Prop :=
  ∀ (o : Opcode) (rs1 rs2 rd : RegNum) (s : State), s.cfg.oddPairPolicy = .consecutive →
    (rs1 ≠ 31#5 → rs2 ≠ 31#5 → rd ≠ 31#5 →
      ∃ t, exec (o.instr rs1 rs2 rd) s = .next t ∧
        PairWritten s t rd (resultOf s.cfg o (pairValue s rs1) (pairValue s rs2)) ∧
        (o.setsCc = false → FlagsKept s t) ∧
        (o.setsCc = true → FlagsSetBy s t (resultOf s.cfg o (pairValue s rs1) (pairValue s rs2))) ∧
        Advanced s t ∧ RestKept s t) ∧
    (rs1 = 31#5 ∨ rs2 = 31#5 ∨ rd = 31#5 →
      ∃ f, exec (o.instr rs1 rs2 rd) s = .refused (.oddPairRegister f s.pc none))

/-! ### Encoding and decoding -/

/-- Words of 95_test_vectors.md sections 2.1 and 2.2. The op3 of XNORDCC is the spec's decision D10 (log entry 18). -/
def Obligations.SpecWordsDecodeAsListed : Prop :=
  decodeWord Config.default 0x84110026#32 = .instr (.ord 4 6 2) ∧
  decodeWord Config.default 0xBC97003A#32 = .instr (.ordcc 28 26 30) ∧
  decodeWord Config.default 0x9432002C#32 = .instr (.ordn 8 12 10) ∧
  decodeWord Config.default 0x90B28020#32 = .instr (.ordncc 10 0 8) ∧
  decodeWord Config.default 0x80990026#32 = .instr (.xordcc 4 6 0) ∧
  decodeWord Config.default 0x84388022#32 = .instr (.xnord 2 2 2) ∧
  decodeWord Config.default 0xBCBF803E#32 = .instr (.xnordcc 30 30 30) ∧
  decodeWord Config.default 0x84090026#32 = .instr (.andd 4 6 2) ∧
  decodeWord Config.default 0xBC8F003A#32 = .instr (.anddcc 28 26 30) ∧
  decodeWord Config.default 0x942A002C#32 = .instr (.anddn 8 12 10) ∧
  decodeWord Config.default 0x90AA8020#32 = .instr (.anddncc 10 0 8) ∧
  decodeWord Config.default 0x80180020#32 = .outOfScopeWord ∧
  decodeWord Config.default 0x84111FE6#32 = .unusedBitsNonZero ∧
  decodeWord Config.default 0x84114066#32 = .unusedBitsNonZero ∧
  decodeWord Config.default 0x86114027#32 = .oddPairRegister .rd

/-- The words of 95_test_vectors.md section 1.5, which R48 and R49 build from the macros. The body of F4 is the spec's
inference, the y of XNORDCC its decision D10 (log entry 18). -/
def Obligations.MacroF4BuildsTheMatchWords : Prop :=
  [0x02#32, 0x12#32, 0x06#32, 0x16#32, 0x13#32, 0x07#32, 0x17#32, 0x01#32, 0x11#32, 0x05#32, 0x15#32].map
      (fun y => macroF4 2#32 y 0#32) = matchWords ∧
  [Opcode.ord, .ordcc, .ordn, .ordncc, .xordcc, .xnord, .xnordcc, .andd, .anddcc, .anddn, .anddncc].map
      (fun o => encodeWord Config.default (o.instr 0 0 0)) = matchWords.map some

/-- R43: every instruction is four bytes; the decoder takes exactly four, whatever follows them; fewer are no
instruction; and under one configuration no other state changes what a fetched word decodes to. -/
def Obligations.EveryInstructionIsOneWord : Prop :=
  ∀ c : Config,
    (∀ (i : Instr) (bs : List Byte), encode c i = some bs → bs.length = 4) ∧
    (∀ (bs rest : List Byte) (i : Instr), decodeBytes c bs = (.instr i, rest) →
      bs.length = 4 + rest.length ∧ ∀ after : List Byte, decodeBytes c (bs.take 4 ++ after) = (.instr i, after)) ∧
    (∀ bs : List Byte, bs.length < 4 → (decodeBytes c bs).1 = .truncated) ∧
    ∀ (s s' : State) (w : Word) (i : Instr), s.cfg = c → s'.cfg = c → Running s → Running s' →
      s.fetch = some w → s'.fetch = some w → decodeWord c w = .instr i → step s = exec i s ∧ step s' = exec i s'

/-- R44: the eight fields of the word of every instruction; between two instructions with the same operands only bits
24..19, op3, differ. -/
def Obligations.EncodedWordsHaveFormatF4 : Prop :=
  (∀ (c : Config) (i : Instr) (w : Word), encodeWord c i = some w →
    w.toNat / 2 ^ 30 = 2 ∧ w.toNat / 2 ^ 25 % 32 = i.rd.toNat ∧
    i.opcode.op3 c = some (BitVec.ofNat 6 (w.toNat / 2 ^ 19)) ∧ w.toNat / 2 ^ 14 % 32 = i.rs1.toNat ∧
    w.toNat / 2 ^ 13 % 2 = 0 ∧ w.toNat / 2 ^ 6 % 128 = 0 ∧ w.toNat / 2 ^ 5 % 2 = 1 ∧ w.toNat % 32 = i.rs2.toNat) ∧
  ∀ (c : Config) (o o' : Opcode) (rs1 rs2 rd : RegNum) (w w' : Word),
    encodeWord c (o.instr rs1 rs2 rd) = some w → encodeWord c (o'.instr rs1 rs2 rd) = some w' →
    (w ^^^ w') &&& 0xFE07FFFF#32 = 0#32

/-- R45: the three operands of a decoded word are its bits 18..14, 4..0 and 29..25 as unsigned numbers, and its op3 field
is bits 24..19. -/
def Obligations.DecodedOperandsAreTheFieldBits : Prop :=
  ∀ (c : Config) (w : Word) (i : Instr), decodeWord c w = .instr i →
    i.rs1.toNat = w.toNat / 2 ^ 14 % 32 ∧ i.rs2.toNat = w.toNat % 32 ∧ i.rd.toNat = w.toNat / 2 ^ 25 % 32 ∧
    ∃ y : Op3, i.opcode.op3 c = some y ∧ y.toNat = w.toNat / 2 ^ 19 % 64

/-- R46: a word the decoder accepts has op = 2, i = 0, AJIT bit 1 and unused bits 0, which is the mask test it gives,
with op3 and without. -/
def Obligations.AcceptedWordsHaveTheFixedBits : Prop :=
  ∀ (c : Config) (w : Word) (i : Instr), c.unusedBitsPolicy = .refuse → decodeWord c w = .instr i →
    w.toNat / 2 ^ 30 = 2 ∧ w.toNat / 2 ^ 13 % 2 = 0 ∧ w.toNat / 2 ^ 5 % 2 = 1 ∧ w.toNat / 2 ^ 6 % 128 = 0 ∧
    w &&& 0xC0003FE0#32 = 0x80000020#32 ∧
    ∃ y : Op3, i.opcode.op3 c = some y ∧ w &&& 0xC1F83FE0#32 = 0x80000020#32 ||| (y.setWidth 32 <<< 19)

/-- R47: a word with bit 13 set is no instruction of the group, whatever its other bits and the parameters, and no
instruction is encoded with bit 13 set. The refusal OutOfScopeWord is the spec's decision D13 (log entry 7). -/
def Obligations.ImmediateFormsAreOutOfScope : Prop :=
  (∀ (c : Config) (w : Word), w.getLsbD 13 = true → decodeWord c w = .outOfScopeWord) ∧
  (∀ (c : Config) (i : Instr) (w : Word), encodeWord c i = some w → w.getLsbD 13 = false)

/-- R52: a word with another op, or with the AJIT bit clear, is out of scope. The refusal is the spec's decision D13 (log
entry 7). -/
def Obligations.BaseWordsAreOutOfScope : Prop :=
  ∀ (c : Config) (w : Word), (w.toNat / 2 ^ 30 ≠ 2 ∨ w.getLsbD 5 = false) → decodeWord c w = .outOfScopeWord

/-- R50 and R53: of the 64 op3 values with the fixed bits of the format, 53 are refused under the defaults, XORD's 000011
among them, and 54 when XNORDCC is absent. The assignment of XNORDCC is the spec's decision D10 (log entry 18). -/
def Obligations.UnassignedOp3ValuesAreRefused : Prop :=
  (∀ (c : Config) (w : Word), (c.xnordccOp3 = some 0x17#6 ∨ c.xnordccOp3 = none) →
    w &&& 0xC1F82020#32 ∉ matchWords → decodeWord c w = .outOfScopeWord) ∧
  (∀ (c : Config) (w : Word), c.xnordccOp3 = none → w &&& 0xC1F82020#32 = 0x80B80020#32 →
    decodeWord c w = .outOfScopeWord) ∧
  ((List.range 64).filter (fun y =>
    decodeWord Config.default (encodeFields (BitVec.ofNat 6 y) 0 0 0) = .outOfScopeWord)).length = 53 ∧
  decodeWord Config.default 0x80180020#32 = .outOfScopeWord

/-- R54: under `ignore` bits 12..6 take no part in decoding; under `refuse` a word that would be in the group without
them is refused for them. The policy is the spec's decision D12 (log entry 21). -/
def Obligations.StrayUnusedBitsByPolicy : Prop :=
  ∀ (c : Config) (w : Word),
    (c.unusedBitsPolicy = .ignore → decodeWord c w = decodeWord c (w &&& 0xFFFFE03F#32)) ∧
    (c.unusedBitsPolicy = .refuse → w &&& 0x00001FC0#32 ≠ 0#32 →
      decodeWord c (w &&& 0xFFFFE03F#32) ≠ .outOfScopeWord → decodeWord c w = .unusedBitsNonZero)

/-- R51: the words accepted under the defaults, by the masks. The op3 of XNORDCC and the two refusing policies are the
spec's decisions D5, D10 and D12 (log entries 18, 20 and 21). -/
def Obligations.AcceptedWordsAreThoseOfTheMasks : Prop :=
  ∀ w : Word, (∃ i, decodeWord Config.default w = .instr i) ↔
    (w &&& 0xC1F83FE0#32 ∈ matchWords ∧ w &&& 0x02004001#32 = 0#32)

/-- R58: encoding then decoding gives every well-formed instruction back, under every configuration in which no word
spells two instructions (log entry 11). -/
def Obligations.DecodeOfEncodeIsTheInstruction : Prop :=
  ∀ (c : Config) (i : Instr), c.op3Distinct = true → i.wf c = true →
    ∃ w, encodeWord c i = some w ∧ decodeWord c w = .instr i

/-- R58: decoding then encoding gives every accepted word back, where stray unused bits are refused. -/
def Obligations.EncodeOfDecodeIsTheWord : Prop :=
  ∀ (c : Config) (w : Word) (i : Instr), c.unusedBitsPolicy = .refuse → decodeWord c w = .instr i →
    encodeWord c i = some w ∧ i.wf c = true

/-- R15, R56, R57: the mnemonic and the operands of an instruction assemble to it, register numbers unchanged, and every
spelling of a register names it. The spellings are general knowledge of the spec, the operand mapping its decision D30
(log entry 34). -/
def Obligations.AssemblerNamesRoundTrip : Prop :=
  (∀ i : Instr, assemble i.opcode.mnemonic i.rs1 i.rs2 i.rd = some i) ∧
  (∀ n : RegNum, regOfName (regName n) = some n ∧ regOfName (groupName n) = some n) ∧
  regOfName "%sp" = some 14#5 ∧ regOfName "%fp" = some 30#5 ∧
  disassemble (.ord 4 6 2) = "ord %r4, %r6, %r2"

/-! ### The step -/

/-- R10: where the step fetches a word that decodes to an instruction, it is `exec` of that instruction. -/
def Obligations.StepRunsTheDecodedInstruction : Prop :=
  ∀ (s : State) (w : Word) (i : Instr), Running s → s.fetch = some w → decodeWord s.cfg w = .instr i →
    step s = exec i s

/-- R32, R33: the four bytes at an aligned `pc`, the first in bits 31..24, are the word fetched; with one of them missing
nothing is. Byte order, alignment and the missing byte are D14, D15 and D17 (log entries 15, 16 and 29). -/
def Obligations.FetchIsBigEndian : Prop :=
  ∀ s : State, s.pc.toNat % 4 = 0 →
    (∀ b0 b1 b2 b3 : Byte,
      Memory.read s.text s.pc.toNat = some b0 → Memory.read s.text (s.pc.toNat + 1) = some b1 →
      Memory.read s.text (s.pc.toNat + 2) = some b2 → Memory.read s.text (s.pc.toNat + 3) = some b3 →
      s.fetch = some (b0 ++ b1 ++ b2 ++ b3)) ∧
    (∀ k, k < 4 → Memory.read s.text (s.pc.toNat + k) = none → s.fetch = none)

/-- R28, R32, R88, R90: no step from a marked state, from a final state, or from outside the text. The spec's decisions
D13, D17, D23 and D27; the fault names are the model's (log entry 7). -/
def Obligations.StatesWithoutAStep : Prop :=
  ∀ s : State,
    (s.refused = true → step s = .fault .markedRefused ∧ s.successor = none ∧ s.isFinal = false) ∧
    (s.refused = false → s.faulted = true →
      step s = .fault .markedFaulted ∧ s.successor = none ∧ s.isFinal = false) ∧
    (s.refused = false → s.faulted = false → s.endPc = some s.pc →
      step s = .fault .runIsFinal ∧ s.successor = none ∧ s.isFinal = true) ∧
    (Running s → s.fetch = none → step s = .fault .stuckOutsideText ∧ s.successor = none ∧ s.isFinal = false)

/-- R51, R71, R75 under the defaults: which outcome each fetched word gives, and what a refusal records. The refusals,
their order and the op3 of XNORDCC are the spec's decisions D5, D10, D12 and D13 (log entries 7, 18, 20 and 21). -/
def Obligations.StepOutcomesUnderTheDefaults : Prop :=
  ∀ (s : State) (w : Word), s.cfg = Config.default → Running s → s.fetch = some w →
    (w &&& 0xC1F82020#32 ∉ matchWords → step s = .refused (.outOfScopeWord s.pc w)) ∧
    (w &&& 0xC1F82020#32 ∈ matchWords → w &&& 0x00001FC0#32 ≠ 0#32 →
      step s = .refused (.unusedBitsNonZero s.pc w)) ∧
    (w &&& 0xC1F83FE0#32 ∈ matchWords → w &&& 0x02000000#32 ≠ 0#32 →
      step s = .refused (.oddPairRegister .rd s.pc (some w))) ∧
    (w &&& 0xC1F83FE0#32 ∈ matchWords → w &&& 0x02000000#32 = 0#32 → w &&& 0x00004000#32 ≠ 0#32 →
      step s = .refused (.oddPairRegister .rs1 s.pc (some w))) ∧
    (w &&& 0xC1F83FE0#32 ∈ matchWords → w &&& 0x02004000#32 = 0#32 → w &&& 0x00000001#32 ≠ 0#32 →
      step s = .refused (.oddPairRegister .rs2 s.pc (some w))) ∧
    (w &&& 0xC1F83FE0#32 ∈ matchWords → w &&& 0x02004001#32 = 0#32 →
      ∃ i t, decodeWord s.cfg w = .instr i ∧ step s = exec i s ∧ exec i s = .next t)

/-- R51, R71, R75 under every configuration: what each fetched word of the group, and each other word, makes the step
do; `OddFieldRaisesUnderTrapPolicy` says the raise. The refusals, their order and the policies are the spec's decisions
D5, D10, D12 and D13 (log entries 7, 18, 20 and 21); the last clause leaves out an `XNORDCC_OP3` that clashes with
another row (log entry 11). -/
def Obligations.StepOutcomesByPolicy : Prop :=
  ∀ (s : State) (w : Word), Running s → s.fetch = some w →
    ((∀ i, ¬SpellsUpToUnused s.cfg w i) → step s = .refused (.outOfScopeWord s.pc w)) ∧
    ∀ i, SpellsUpToUnused s.cfg w i →
      (¬UnusedAccepted s.cfg w → step s = .refused (.unusedBitsNonZero s.pc w)) ∧
      (UnusedAccepted s.cfg w →
        (Unpaired s.cfg i.rd → step s = .refused (.oddPairRegister .rd s.pc (some w))) ∧
        (¬Unpaired s.cfg i.rd → Unpaired s.cfg i.rs1 →
          step s = .refused (.oddPairRegister .rs1 s.pc (some w))) ∧
        (¬Unpaired s.cfg i.rd → ¬Unpaired s.cfg i.rs1 → Unpaired s.cfg i.rs2 →
          step s = .refused (.oddPairRegister .rs2 s.pc (some w))) ∧
        (¬Unpaired s.cfg i.rd → ¬Unpaired s.cfg i.rs1 → ¬Unpaired s.cfg i.rs2 →
          (s.cfg.oddPairPolicy = .trapIllegal → EvenReg i.rd ∧ EvenReg i.rs1 ∧ EvenReg i.rs2) →
          s.cfg.op3Distinct = true → ∃ t, step s = exec i s ∧ exec i s = .next t))

/-- R28, R72, R73, R78: a step to a next state makes it the successor; a refusal leads to the state before with the
refused mark set, the raise to the state before with the faulted mark set, and to nothing else; no other fault leads
anywhere. The marks are the spec's decisions D13 and D23 (log entry 8). -/
def Obligations.StoppedStepsWriteOnlyTheMark : Prop :=
  ∀ s : State,
    (∀ t, step s = .next t → s.successor = some t) ∧
    (∀ r, step s = .refused r → s.successor = some { s with refused := true }) ∧
    (∀ tt, step s = .fault (.illegalInstruction tt) → tt = 0x02#8 ∧ s.successor = some { s with faulted := true }) ∧
    ∀ t, s.successor = some t →
      step s = .next t ∨
      (∃ r, step s = .refused r ∧ t = { s with refused := true }) ∨
      (step s = .fault (.illegalInstruction 0x02#8) ∧ t = { s with faulted := true })

/-- R70: no step raises an exception unless `ODD_PAIR_POLICY` is `trap_illegal`. The spec's decision D21 (log
entry 26). -/
def Obligations.NoExceptionWithoutTrapPolicy : Prop :=
  ∀ (s : State) (tt : BitVec 8), s.cfg.oddPairPolicy ≠ .trapIllegal → step s ≠ .fault (.illegalInstruction tt)

/-- R34: every step keeps the text canonical and both counters multiples of 4. Alignment is the spec's decision D15, the
text as cells the model's form (log entries 5 and 16). -/
def Obligations.EveryStepKeepsTheInvariant : Prop :=
  ∀ s t : State, s.Inv → step s = .next t → t.Inv

/-- The state after reset meets the invariant; its `pc` and `npc` are the model's choice (log entry 3). -/
def Obligations.ResetMeetsTheInvariant : Prop := State.reset.Inv

/-- R28, R41: no step changes the text, the parameters, `END_PC` or a mark. The spec's decisions D13 and D20 (log
entries 1, 8 and 23). -/
def Obligations.EveryStepKeepsTextAndParameters : Prop :=
  ∀ s t : State, step s = .next t →
    t.text = s.text ∧ t.cfg = s.cfg ∧ t.endPc = s.endPc ∧ t.refused = false ∧ t.faulted = false

/-- What R30 and R6 give: `x[0]` and the two marks zero, the parameters at their defaults. -/
def Obligations.ResetHasTheSpecsValues : Prop :=
  State.reset.readReg 0#5 = 0#32 ∧ State.reset.refused = false ∧ State.reset.faulted = false ∧
  State.reset.cfg = Config.default

/-- What the model chose where the spec gives no reset value: log entries 2, 3, 4, 5, 6 and 28. -/
def Obligations.ResetHasTheModelsValues : Prop :=
  (∀ n : RegNum, State.reset.readReg n = 0#32) ∧ State.reset.pc = 0#32 ∧ State.reset.npc = 4#32 ∧
  State.reset.icc = ⟨false, false, false, false⟩ ∧ State.reset.text = [] ∧ State.reset.endPc = none ∧
  State.reset.draws = 0

/-- A word placed at an aligned `pc` in a canonical text is what the next step runs; the placing is the model's (log
entry 33). -/
def Obligations.PlacedWordRunsNext : Prop :=
  ∀ (s : State) (w : Nat) (i : Instr), s.Inv → decodeWord s.cfg (BitVec.ofNat 32 w) = .instr i →
    step (s.withFetchWord 32 w) = exec i (s.withFetchWord 32 w)

/-! ### Runs -/

/-- R21: from a sequential launch, `k` steps leave `pc` exactly `4 k` further and the state sequential. The counters are
the spec's decisions D9 and D16 (log entries 14 and 30). -/
def Obligations.SequentialRunsAdvanceByFour : Prop :=
  ∀ (k : Nat) (s t : State), s.launchSequential = true → Runs k s t →
    t.pc = s.pc + BitVec.ofNat 32 (4 * k) ∧ t.launchSequential = true

/-- R88: from a sequential launch with no mark, `k` accepted words in a row, none of them at `END_PC`, run in exactly `k`
steps to the address after them, which is final if it is `END_PC`. The end of a run is the spec's decision D27, the
counters its decision D9 (log entries 7, 14 and 28). -/
def Obligations.StraightLineCodeRunsToItsEnd : Prop :=
  ∀ (k : Nat) (s : State), s.launchNotRefused = true → s.launchSequential = true →
    (∀ j, j < k → s.endPc ≠ some (s.pc + BitVec.ofNat 32 (4 * j)) ∧
      ∃ w i, textAt s.text (s.pc + BitVec.ofNat 32 (4 * j)) = some w ∧ decodeWord s.cfg w = .instr i) →
    ∃ t, Runs k s t ∧ t.pc = s.pc + BitVec.ofNat 32 (4 * k) ∧
      (s.endPc = some t.pc → t.isFinal = true)

end Statements
end

