-- ==== Sys2Proof/Laws/Decode.lean ====
section
/-! SUPPORT. Words as their fields (R45), the masks of R46 and R51 in terms of the fields, and what the decoder and the
encoder answer. -/

namespace Sys2Proof

/-- The word with the given fields. -/
def wordOfFields (op : BitVec 2) (rd : RegNum) (y : Op3) (rs1 : RegNum) (i : BitVec 1) (un : BitVec 7)
    (aj : BitVec 1) (rs2 : RegNum) : Word := op ++ rd ++ y ++ rs1 ++ i ++ un ++ aj ++ rs2

section Fields

variable (w : Word) (op : BitVec 2) (rd : RegNum) (y : Op3) (rs1 : RegNum) (i : BitVec 1) (un : BitVec 7)
  (aj : BitVec 1) (rs2 : RegNum)

theorem word_eq_fields : w = wordOfFields (opField w) (rdField w) (op3Field w) (rs1Field w) (iField w)
    (unusedField w) (ajitField w) (rs2Field w) := by
  unfold wordOfFields opField rdField op3Field rs1Field iField unusedField ajitField rs2Field field
  apply BitVec.eq_of_getLsbD_eq
  intro k hk
  simp only [BitVec.getLsbD_append, BitVec.getLsbD_extractLsb']
  interval_cases k <;> simp

@[simp] theorem opField_wordOfFields : opField (wordOfFields op rd y rs1 i un aj rs2) = op := by
  unfold opField field wordOfFields
  apply BitVec.eq_of_getLsbD_eq
  intro k hk
  simp only [BitVec.getLsbD_append, BitVec.getLsbD_extractLsb']
  interval_cases k <;> simp

@[simp] theorem rdField_wordOfFields : rdField (wordOfFields op rd y rs1 i un aj rs2) = rd := by
  unfold rdField field wordOfFields
  apply BitVec.eq_of_getLsbD_eq
  intro k hk
  simp only [BitVec.getLsbD_append, BitVec.getLsbD_extractLsb']
  interval_cases k <;> simp

@[simp] theorem op3Field_wordOfFields : op3Field (wordOfFields op rd y rs1 i un aj rs2) = y := by
  unfold op3Field field wordOfFields
  apply BitVec.eq_of_getLsbD_eq
  intro k hk
  simp only [BitVec.getLsbD_append, BitVec.getLsbD_extractLsb']
  interval_cases k <;> simp

@[simp] theorem rs1Field_wordOfFields : rs1Field (wordOfFields op rd y rs1 i un aj rs2) = rs1 := by
  unfold rs1Field field wordOfFields
  apply BitVec.eq_of_getLsbD_eq
  intro k hk
  simp only [BitVec.getLsbD_append, BitVec.getLsbD_extractLsb']
  interval_cases k <;> simp

@[simp] theorem iField_wordOfFields : iField (wordOfFields op rd y rs1 i un aj rs2) = i := by
  unfold iField field wordOfFields
  apply BitVec.eq_of_getLsbD_eq
  intro k hk
  simp only [BitVec.getLsbD_append, BitVec.getLsbD_extractLsb']
  interval_cases k; simp

@[simp] theorem unusedField_wordOfFields : unusedField (wordOfFields op rd y rs1 i un aj rs2) = un := by
  unfold unusedField field wordOfFields
  apply BitVec.eq_of_getLsbD_eq
  intro k hk
  simp only [BitVec.getLsbD_append, BitVec.getLsbD_extractLsb']
  interval_cases k <;> simp

@[simp] theorem ajitField_wordOfFields : ajitField (wordOfFields op rd y rs1 i un aj rs2) = aj := by
  unfold ajitField field wordOfFields
  apply BitVec.eq_of_getLsbD_eq
  intro k hk
  simp only [BitVec.getLsbD_append, BitVec.getLsbD_extractLsb']
  interval_cases k; simp

@[simp] theorem rs2Field_wordOfFields : rs2Field (wordOfFields op rd y rs1 i un aj rs2) = rs2 := by
  unfold rs2Field field wordOfFields
  apply BitVec.eq_of_getLsbD_eq
  intro k hk
  simp only [BitVec.getLsbD_append, BitVec.getLsbD_extractLsb']
  interval_cases k <;> simp

/-- A word with the mask of op, op3, i and the AJIT bit keeps those fields and no other. -/
theorem and_groupMask : w &&& 0xC1F82020#32 =
    wordOfFields (opField w) 0#5 (op3Field w) 0#5 (iField w) 0#7 (ajitField w) 0#5 := by
  unfold wordOfFields opField op3Field iField ajitField field
  apply BitVec.eq_of_getLsbD_eq
  intro k hk
  simp only [BitVec.getLsbD_append, BitVec.getLsbD_and, BitVec.getLsbD_extractLsb']
  interval_cases k <;> simp

/-- The mask of R46 with op3 included. -/
theorem and_matchMask : w &&& 0xC1F83FE0#32 =
    wordOfFields (opField w) 0#5 (op3Field w) 0#5 (iField w) (unusedField w) (ajitField w) 0#5 := by
  unfold wordOfFields opField op3Field iField ajitField unusedField field
  apply BitVec.eq_of_getLsbD_eq
  intro k hk
  simp only [BitVec.getLsbD_append, BitVec.getLsbD_and, BitVec.getLsbD_extractLsb']
  interval_cases k <;> simp

/-- The mask of R46 before op3 is looked at. -/
theorem and_fixedMask : w &&& 0xC0003FE0#32 =
    wordOfFields (opField w) 0#5 0#6 0#5 (iField w) (unusedField w) (ajitField w) 0#5 := by
  unfold wordOfFields opField iField ajitField unusedField field
  apply BitVec.eq_of_getLsbD_eq
  intro k hk
  simp only [BitVec.getLsbD_append, BitVec.getLsbD_and, BitVec.getLsbD_extractLsb']
  interval_cases k <;> simp

/-- The mask of the unused bits (R54). -/
theorem and_unusedMask : w &&& 0x00001FC0#32 = wordOfFields 0#2 0#5 0#6 0#5 0#1 (unusedField w) 0#1 0#5 := by
  unfold wordOfFields unusedField field
  apply BitVec.eq_of_getLsbD_eq
  intro k hk
  simp only [BitVec.getLsbD_append, BitVec.getLsbD_and, BitVec.getLsbD_extractLsb']
  interval_cases k <;> simp

/-- A word with its unused bits cleared. -/
theorem and_clearUnused : w &&& 0xFFFFE03F#32 =
    wordOfFields (opField w) (rdField w) (op3Field w) (rs1Field w) (iField w) 0#7 (ajitField w) (rs2Field w) := by
  unfold wordOfFields opField rdField op3Field rs1Field iField ajitField rs2Field field
  apply BitVec.eq_of_getLsbD_eq
  intro k hk
  simp only [BitVec.getLsbD_append, BitVec.getLsbD_and, BitVec.getLsbD_extractLsb']
  interval_cases k <;> simp

end Fields

/-- The encoder builds the format of R44. -/
theorem encodeFields_eq (y : Op3) (rs1 rs2 rd : RegNum) :
    encodeFields y rs1 rs2 rd = wordOfFields 2#2 rd y rs1 0#1 0#7 1#1 rs2 := by
  have hc : (2#32 &&& 0x3#32) <<< 30 = 0x80000000#32 := by decide
  have hz : (0#32 &&& 0x1#32) <<< 13 = 0#32 := by decide
  have ha : (1#32 &&& 0x1#32) <<< 5 = 0x20#32 := by decide
  unfold encodeFields macroF4 macroOp macroF3I macroAjitBit macroOp3 wordOfFields
  rw [hc, hz, ha]
  apply BitVec.eq_of_getLsbD_eq
  intro k hk
  simp only [BitVec.getLsbD_append, BitVec.getLsbD_or, BitVec.getLsbD_shiftLeft, BitVec.getLsbD_setWidth,
    BitVec.getLsbD_and]
  interval_cases k <;> simp

/-- Everything the decoder answers, in terms of the fields. -/
theorem decodeWord_fields (c : Config) (op : BitVec 2) (rd : RegNum) (y : Op3) (rs1 : RegNum) (i : BitVec 1)
    (un : BitVec 7) (aj : BitVec 1) (rs2 : RegNum) :
    decodeWord c (wordOfFields op rd y rs1 i un aj rs2) =
      if op ≠ 2#2 ∨ i ≠ 0#1 ∨ aj ≠ 1#1 then .outOfScopeWord
      else match lookupOp3 c y with
        | none => .outOfScopeWord
        | some o =>
          if un ≠ 0#7 ∧ c.unusedBitsPolicy = .refuse then .unusedBitsNonZero
          else match Machine.operands c.oddPairPolicy rs1 rs2 rd with
            | .refuse f => .oddPairRegister f
            | .trap => .illegalInstruction
            | .pairs _ _ _ => .instr (o.instr rs1 rs2 rd) := by
  unfold decodeWord
  simp only [opField_wordOfFields, rdField_wordOfFields, op3Field_wordOfFields, rs1Field_wordOfFields,
    iField_wordOfFields, unusedField_wordOfFields, ajitField_wordOfFields, rs2Field_wordOfFields]
  cases lookupOp3 c y <;> cases Machine.operands c.oddPairPolicy rs1 rs2 rd <;>
    by_cases h1 : op = 2#2 <;> by_cases h2 : i = 0#1 <;> by_cases h3 : aj = 1#1 <;> simp [h1, h2, h3]

/-- A word decodes to an instruction exactly when its fixed fields are right, its op3 selects the operation, its unused
bits pass their policy, and its registers name pairs. -/
theorem decodeWord_instr (c : Config) (w : Word) (i : Instr) :
    decodeWord c w = .instr i ↔
      opField w = 2#2 ∧ iField w = 0#1 ∧ ajitField w = 1#1 ∧ lookupOp3 c (op3Field w) = some i.opcode ∧
      (unusedField w = 0#7 ∨ c.unusedBitsPolicy = .ignore) ∧
      (∃ p1 p2 d, Machine.operands c.oddPairPolicy (rs1Field w) (rs2Field w) (rdField w) = .pairs p1 p2 d) ∧
      i.rs1 = rs1Field w ∧ i.rs2 = rs2Field w ∧ i.rd = rdField w := by
  have inj : ∀ o : Opcode, o.instr (rs1Field w) (rs2Field w) (rdField w) = i ↔
      o = i.opcode ∧ i.rs1 = rs1Field w ∧ i.rs2 = rs2Field w ∧ i.rd = rdField w := by
    intro o
    constructor
    · rintro rfl; cases o <;> exact ⟨rfl, rfl, rfl, rfl⟩
    · rintro ⟨rfl, h1, h2, h3⟩; rw [← h1, ← h2, ← h3]; cases i <;> rfl
  rw [word_eq_fields w, decodeWord_fields]
  simp only [opField_wordOfFields, rdField_wordOfFields, op3Field_wordOfFields, rs1Field_wordOfFields,
    iField_wordOfFields, unusedField_wordOfFields, ajitField_wordOfFields, rs2Field_wordOfFields]
  by_cases h : opField w ≠ 2#2 ∨ iField w ≠ 0#1 ∨ ajitField w ≠ 1#1
  · rw [if_pos h]
    constructor
    · exact nofun
    · rintro ⟨h1, h2, h3, _⟩; simp [h1, h2, h3] at h
  · rw [if_neg h]
    push Not at h
    obtain ⟨h1, h2, h3⟩ := h
    cases lookupOp3 c (op3Field w) with
    | none => simp
    | some o =>
      by_cases hu : unusedField w = 0#7 <;> cases hp : c.unusedBitsPolicy <;>
        cases Machine.operands c.oddPairPolicy (rs1Field w) (rs2Field w) (rdField w) <;>
        simp [h1, h2, h3, hu, inj]

/-- The op3 that selects an operation is the operation's own. -/
theorem op3_of_lookup {c : Config} {y : Op3} {o : Opcode} (h : lookupOp3 c y = some o) : o.op3 c = some y := by
  have := List.find?_some h
  simpa using this

/-- In a configuration where no word spells two instructions, an operation's op3 selects it. -/
theorem lookup_of_op3 {c : Config} {y : Op3} {o : Opcode} (hc : c.op3Distinct = true) (h : o.op3 c = some y) :
    lookupOp3 c y = some o := by
  obtain ⟨_, _, x, _, _, _⟩ := c
  cases o <;> simp only [Opcode.op3] at h
  case xnordcc =>
    subst h
    simp only [Config.op3Distinct] at hc
    simp at hc
    obtain ⟨h1, h2, h3, h4, h5, h6, h7, h8, h9, h10⟩ := hc
    simp [lookupOp3, opcodeOrder, Opcode.op3, Ne.symm h1, Ne.symm h2, Ne.symm h3, Ne.symm h4, Ne.symm h5,
      Ne.symm h6, Ne.symm h7, Ne.symm h8, Ne.symm h9, Ne.symm h10]
  all_goals
    injection h with h
    subst h
    simp [lookupOp3, opcodeOrder, Opcode.op3]

end Sys2Proof
end

