-- ==== Sys2Proof/Laws/State.lean ====
section
/-! SUPPORT. What each update of the state leaves alone, one lemma per field and update. -/

namespace Sys2Proof.Machine

variable (s : State) (n : RegNum) (v : Word) (p : Pair) (res : DWord) (w : Word)

@[simp] theorem State.writeReg_cfg : (s.writeReg n v).cfg = s.cfg := by unfold State.writeReg; split <;> rfl
@[simp] theorem State.writeReg_pc : (s.writeReg n v).pc = s.pc := by unfold State.writeReg; split <;> rfl
@[simp] theorem State.writeReg_npc : (s.writeReg n v).npc = s.npc := by unfold State.writeReg; split <;> rfl
@[simp] theorem State.writeReg_icc : (s.writeReg n v).icc = s.icc := by unfold State.writeReg; split <;> rfl
@[simp] theorem State.writeReg_text : (s.writeReg n v).text = s.text := by unfold State.writeReg; split <;> rfl
@[simp] theorem State.writeReg_endPc : (s.writeReg n v).endPc = s.endPc := by unfold State.writeReg; split <;> rfl
@[simp] theorem State.writeReg_refused : (s.writeReg n v).refused = s.refused := by
  unfold State.writeReg; split <;> rfl
@[simp] theorem State.writeReg_faulted : (s.writeReg n v).faulted = s.faulted := by
  unfold State.writeReg; split <;> rfl
@[simp] theorem State.writeReg_draws : (s.writeReg n v).draws = s.draws := by unfold State.writeReg; split <;> rfl

@[simp] theorem State.pairWrite_cfg : (s.pairWrite p res).cfg = s.cfg := by unfold State.pairWrite; split <;> simp
@[simp] theorem State.pairWrite_pc : (s.pairWrite p res).pc = s.pc := by unfold State.pairWrite; split <;> simp
@[simp] theorem State.pairWrite_npc : (s.pairWrite p res).npc = s.npc := by unfold State.pairWrite; split <;> simp
@[simp] theorem State.pairWrite_icc : (s.pairWrite p res).icc = s.icc := by unfold State.pairWrite; split <;> simp
@[simp] theorem State.pairWrite_text : (s.pairWrite p res).text = s.text := by unfold State.pairWrite; split <;> simp
@[simp] theorem State.pairWrite_endPc : (s.pairWrite p res).endPc = s.endPc := by
  unfold State.pairWrite; split <;> simp
@[simp] theorem State.pairWrite_refused : (s.pairWrite p res).refused = s.refused := by
  unfold State.pairWrite; split <;> simp
@[simp] theorem State.pairWrite_faulted : (s.pairWrite p res).faulted = s.faulted := by
  unfold State.pairWrite; split <;> simp
@[simp] theorem State.pairWrite_draws : (s.pairWrite p res).draws = s.draws := by
  unfold State.pairWrite; split <;> simp

@[simp] theorem State.advance_cfg : s.advance.cfg = s.cfg := rfl
@[simp] theorem State.advance_x : s.advance.x = s.x := rfl
@[simp] theorem State.advance_pc : s.advance.pc = s.npc := rfl
@[simp] theorem State.advance_npc : s.advance.npc = s.npc + 4#32 := rfl
@[simp] theorem State.advance_icc : s.advance.icc = s.icc := rfl
@[simp] theorem State.advance_text : s.advance.text = s.text := rfl
@[simp] theorem State.advance_endPc : s.advance.endPc = s.endPc := rfl
@[simp] theorem State.advance_refused : s.advance.refused = s.refused := rfl
@[simp] theorem State.advance_faulted : s.advance.faulted = s.faulted := rfl
@[simp] theorem State.advance_draws : s.advance.draws = s.draws := rfl

@[simp] theorem State.setZ64_cfg : (s.setZ64 res).cfg = s.cfg := rfl
@[simp] theorem State.setZ64_x : (s.setZ64 res).x = s.x := rfl
@[simp] theorem State.setZ64_pc : (s.setZ64 res).pc = s.pc := rfl
@[simp] theorem State.setZ64_npc : (s.setZ64 res).npc = s.npc := rfl
@[simp] theorem State.setZ64_z : (s.setZ64 res).icc.z = (res == 0#64) := rfl
@[simp] theorem State.setZ64_n : (s.setZ64 res).icc.n = s.icc.n := rfl
@[simp] theorem State.setZ64_v : (s.setZ64 res).icc.v = s.icc.v := rfl
@[simp] theorem State.setZ64_c : (s.setZ64 res).icc.c = s.icc.c := rfl
@[simp] theorem State.setZ64_text : (s.setZ64 res).text = s.text := rfl
@[simp] theorem State.setZ64_endPc : (s.setZ64 res).endPc = s.endPc := rfl
@[simp] theorem State.setZ64_refused : (s.setZ64 res).refused = s.refused := rfl
@[simp] theorem State.setZ64_faulted : (s.setZ64 res).faulted = s.faulted := rfl
@[simp] theorem State.setZ64_draws : (s.setZ64 res).draws = s.draws := rfl

@[simp] theorem State.setNVC64_cfg : (s.setNVC64 res).cfg = s.cfg := by unfold State.setNVC64; split <;> rfl
@[simp] theorem State.setNVC64_x : (s.setNVC64 res).x = s.x := by unfold State.setNVC64; split <;> rfl
@[simp] theorem State.setNVC64_pc : (s.setNVC64 res).pc = s.pc := by unfold State.setNVC64; split <;> rfl
@[simp] theorem State.setNVC64_npc : (s.setNVC64 res).npc = s.npc := by unfold State.setNVC64; split <;> rfl
@[simp] theorem State.setNVC64_z : (s.setNVC64 res).icc.z = s.icc.z := by unfold State.setNVC64; split <;> rfl
@[simp] theorem State.setNVC64_text : (s.setNVC64 res).text = s.text := by unfold State.setNVC64; split <;> rfl
@[simp] theorem State.setNVC64_endPc : (s.setNVC64 res).endPc = s.endPc := by unfold State.setNVC64; split <;> rfl
@[simp] theorem State.setNVC64_refused : (s.setNVC64 res).refused = s.refused := by
  unfold State.setNVC64; split <;> rfl
@[simp] theorem State.setNVC64_faulted : (s.setNVC64 res).faulted = s.faulted := by
  unfold State.setNVC64; split <;> rfl

@[simp] theorem State.placeWord_cfg : (s.placeWord w).cfg = s.cfg := rfl
@[simp] theorem State.placeWord_x : (s.placeWord w).x = s.x := rfl
@[simp] theorem State.placeWord_pc : (s.placeWord w).pc = s.pc := rfl
@[simp] theorem State.placeWord_npc : (s.placeWord w).npc = s.npc := rfl
@[simp] theorem State.placeWord_icc : (s.placeWord w).icc = s.icc := rfl
@[simp] theorem State.placeWord_text : (s.placeWord w).text = memWrite s.text s.pc (bytesOfWord w) := rfl
@[simp] theorem State.placeWord_refused : (s.placeWord w).refused = false := rfl
@[simp] theorem State.placeWord_faulted : (s.placeWord w).faulted = false := rfl
@[simp] theorem State.placeWord_draws : (s.placeWord w).draws = s.draws := rfl

end Sys2Proof.Machine
end

