-- ==== Sys2Proof/Laws/Registers.lean ====
section
/-! SUPPORT. Reading a register after a write (R14), and reading registers after the pair and flag operations (R17,
R18). -/

namespace Sys2Proof.Machine

@[simp] theorem State.readReg_zero (s : State) : s.readReg 0#5 = 0#32 := rfl

/-- Only `x` matters to a register read. -/
theorem State.readReg_congr {s t : State} (h : t.x = s.x) (n : RegNum) : t.readReg n = s.readReg n := by
  simp [State.readReg, h]

theorem State.readReg_writeReg (s : State) (n m : RegNum) (v : Word) :
    (s.writeReg n v).readReg m = if m = n ∧ n ≠ 0#5 then v else s.readReg m := by
  unfold State.writeReg
  by_cases hn : n = 0#5
  · simp [hn]
  · rw [if_neg hn]
    by_cases hm : m = 0#5
    · subst hm
      have : ¬ (0#5 = n ∧ n ≠ 0#5) := fun h => hn h.1.symm
      simp [State.readReg, this]
    · have key : (n.toNat - 1 = m.toNat - 1) ↔ m = n := by
        constructor
        · intro h
          apply BitVec.eq_of_toNat_eq
          have a : n.toNat ≠ 0 := fun e => hn (BitVec.eq_of_toNat_eq e)
          have b : m.toNat ≠ 0 := fun e => hm (BitVec.eq_of_toNat_eq e)
          omega
        · rintro rfl; rfl
      simp [State.readReg, hm, hn, Vector.getElem_set, key]

@[simp] theorem State.readReg_advance (s : State) (n : RegNum) : s.advance.readReg n = s.readReg n := rfl

@[simp] theorem State.readReg_setZ64 (s : State) (res : DWord) (n : RegNum) :
    (s.setZ64 res).readReg n = s.readReg n := rfl

@[simp] theorem State.readReg_setNVC64 (s : State) (res : DWord) (n : RegNum) :
    (s.setNVC64 res).readReg n = s.readReg n := State.readReg_congr (by simp) n

/-- The first register of an even-numbered pair is the high one by `PAIR_HIGH_WORD` (R17). -/
theorem firstIsHigh_even {h : PairHighWord} {p : Pair} (hp : isOdd p.first = false) :
    firstIsHigh h p = decide (h = .even) := by cases h <;> simp [firstIsHigh, hp]

/-- The first register of an odd-numbered pair is the high one (R19). -/
theorem firstIsHigh_odd {h : PairHighWord} {p : Pair} (hp : isOdd p.first = true) : firstIsHigh h p = true := by
  cases h <;> simp [firstIsHigh, hp]

/-- One half of a 64-bit value: the high one, or the low one. -/
def half (high : Bool) (v : DWord) : Word := if high then v.extractLsb' 32 32 else v.extractLsb' 0 32

/-- The half of a 64-bit value that the first register of a pair holds (R17, R19). -/
def firstHalf (c : Config) (p : Pair) (v : DWord) : Word := half (firstIsHigh c.pairHighWord p) v

/-- The half that the second register holds (R17, R19). -/
def secondHalf (c : Config) (p : Pair) (v : DWord) : Word := half (!firstIsHigh c.pairHighWord p) v

/-- A register after `PairWrite` of two different registers: its half if it is one of them and is not register 0, else
what it held (R18). -/
theorem State.readReg_pairWrite (s : State) (p : Pair) (v : DWord) (n : RegNum) (h : p.first ≠ p.second) :
    (s.pairWrite p v).readReg n =
      if n = 0#5 then 0#32 else if n = p.first then firstHalf s.cfg p v
      else if n = p.second then secondHalf s.cfg p v else s.readReg n := by
  unfold State.pairWrite firstHalf secondHalf half
  by_cases h0 : n = 0#5
  · subst h0; simp
  · cases firstIsHigh s.cfg.pairHighWord p <;> simp only [State.readReg_writeReg, h0, if_false, if_true,
      Bool.false_eq_true, Bool.not_true, Bool.not_false]
    all_goals
      by_cases h1 : n = p.first
      · have : n ≠ p.second := fun e => h (h1 ▸ e)
        have h2 : p.first ≠ 0#5 := h1 ▸ h0
        simp [h1, h, h2]
      · by_cases h2 : n = p.second
        · have h3 : p.second ≠ 0#5 := h2 ▸ h0
          simp [h2, h3, Ne.symm h]
        · simp [h1, h2]

@[simp] theorem State.pairRead_advance (s : State) (p : Pair) : s.advance.pairRead p = s.pairRead p := rfl

theorem high_append (a b : Word) : (a ++ b : DWord).extractLsb' 32 32 = a := BitVec.extractLsb'_append_eq_left

theorem low_append (a b : Word) : (a ++ b : DWord).extractLsb' 0 32 = b := BitVec.extractLsb'_append_eq_right

/-- The two halves of a pair read are its two registers. -/
theorem State.firstHalf_pairRead (s : State) (p : Pair) : firstHalf s.cfg p (s.pairRead p) = s.readReg p.first := by
  unfold State.pairRead firstHalf half
  cases firstIsHigh s.cfg.pairHighWord p <;>
    simp only [if_true, if_false, Bool.false_eq_true, high_append, low_append]

theorem State.secondHalf_pairRead (s : State) (p : Pair) :
    secondHalf s.cfg p (s.pairRead p) = s.readReg p.second := by
  unfold State.pairRead secondHalf half
  cases firstIsHigh s.cfg.pairHighWord p <;>
    simp only [if_true, if_false, Bool.false_eq_true, Bool.not_true, Bool.not_false, high_append, low_append]

section Halves

variable (high : Bool) (a b : DWord)

@[simp] theorem half_or : half high (a ||| b) = half high a ||| half high b := by
  cases high <;> exact BitVec.extractLsb'_or
@[simp] theorem half_and : half high (a &&& b) = half high a &&& half high b := by
  cases high <;> exact BitVec.extractLsb'_and
@[simp] theorem half_xor : half high (a ^^^ b) = half high a ^^^ half high b := by
  cases high <;> exact BitVec.extractLsb'_xor

theorem extractLsb'_not_of_le (v : DWord) (lo : Nat) (h : lo ≤ 32) :
    (~~~v).extractLsb' lo 32 = ~~~(v.extractLsb' lo 32) := by
  apply BitVec.eq_of_getLsbD_eq
  intro i hi
  simp [hi]
  omega

@[simp] theorem half_not : half high (~~~a) = ~~~half high a := by
  cases high <;> exact extractLsb'_not_of_le a _ (by decide)

/-- A 64-bit value is zero exactly when both halves are. -/
theorem halves_zero : a = 0#64 ↔ half high a = 0#32 ∧ half (!high) a = 0#32 := by
  have ext : a = 0#64 ↔ a.extractLsb' 32 32 = 0#32 ∧ a.extractLsb' 0 32 = 0#32 := by
    constructor
    · rintro rfl; exact ⟨by decide, by decide⟩
    · rintro ⟨h1, h2⟩
      apply BitVec.eq_of_getLsbD_eq
      intro i hi
      by_cases hl : i < 32
      · have := congrArg (fun b => b.getLsbD i) h2
        simpa [hl] using this
      · have h3 := congrArg (fun b => b.getLsbD (i - 32)) h1
        have h4 : i - 32 < 32 := by omega
        have h5 : 32 + (i - 32) = i := by omega
        simpa [h4, h5] using h3
  cases high <;> simp only [half, if_true, if_false, Bool.false_eq_true, Bool.not_true, Bool.not_false, ext]
  exact and_comm

end Halves

end Sys2Proof.Machine
end

