-- ==== Sys2Proof/Laws/Exec.lean ====
section
/-! SUPPORT. Everything an instruction can do, said once: `exec` is `pairOp` of the instruction's function and operands,
and `pairOp` refuses, raises, or gives the one next state of R59 to R69. -/

namespace Sys2Proof.Machine

/-- The 64-bit function of an operation. -/
def opFn (c : Config) : Opcode → DWord → DWord → DWord
  | .ord | .ordcc => fun a b => a ||| b
  | .ordn | .ordncc => fun a b => a ||| ~~~b
  | .xordcc => fun a b => a ^^^ b
  | .xnord | .xnordcc => xnor c.xnorFormula
  | .andd | .anddcc => fun a b => a &&& b
  | .anddn | .anddncc => fun a b => a &&& ~~~b

theorem exec_eq_pairOp (i : Instr) (s : State) :
    exec i s = pairOp (opFn s.cfg i.opcode) i.opcode.setsCc i.rs1 i.rs2 i.rd s := by
  cases i <;> rfl

@[simp] theorem instr_opcode (o : Opcode) (a b d : RegNum) : (o.instr a b d).opcode = o := by cases o <;> rfl
@[simp] theorem instr_rs1 (o : Opcode) (a b d : RegNum) : (o.instr a b d).rs1 = a := by cases o <;> rfl
@[simp] theorem instr_rs2 (o : Opcode) (a b d : RegNum) : (o.instr a b d).rs2 = b := by cases o <;> rfl
@[simp] theorem instr_rd (o : Opcode) (a b d : RegNum) : (o.instr a b d).rd = d := by cases o <;> rfl
theorem instr_eta (i : Instr) : i.opcode.instr i.rs1 i.rs2 i.rd = i := by cases i <;> rfl

/-- The state in which a completed operation leaves the machine. -/
def afterOp (cc : Bool) (d : Pair) (res : DWord) (s : State) : State :=
  (if cc then ((s.pairWrite d res).setZ64 res).setNVC64 res else s.pairWrite d res).advance

theorem pairOp_pairs {f : DWord → DWord → DWord} {cc : Bool} {rs1 rs2 rd : RegNum} {s : State} {p1 p2 d : Pair}
    (h : operands s.cfg.oddPairPolicy rs1 rs2 rd = .pairs p1 p2 d) :
    pairOp f cc rs1 rs2 rd s = .next (afterOp cc d (f (s.pairRead p1) (s.pairRead p2)) s) := by
  simp [pairOp, h, afterOp]

/-- Everything an instruction can do. -/
theorem exec_cases (i : Instr) (s : State) :
    (∃ p1 p2 d, operands s.cfg.oddPairPolicy i.rs1 i.rs2 i.rd = .pairs p1 p2 d ∧
      exec i s = .next (afterOp i.opcode.setsCc d (opFn s.cfg i.opcode (s.pairRead p1) (s.pairRead p2)) s)) ∨
    (∃ f, operands s.cfg.oddPairPolicy i.rs1 i.rs2 i.rd = .refuse f ∧
      exec i s = .refused (.oddPairRegister f s.pc none)) ∨
    (operands s.cfg.oddPairPolicy i.rs1 i.rs2 i.rd = .trap ∧ exec i s = raiseIllegal) := by
  rw [exec_eq_pairOp]
  cases h : operands s.cfg.oddPairPolicy i.rs1 i.rs2 i.rd with
  | pairs p1 p2 d => exact .inl ⟨p1, p2, d, rfl, pairOp_pairs h⟩
  | refuse f => exact .inr (.inl ⟨f, rfl, by simp [pairOp, h]⟩)
  | trap => exact .inr (.inr ⟨rfl, by simp [pairOp, h]⟩)

/-- An instruction that answers a next state resolved its operands, and the state is `afterOp`. -/
theorem exec_next {i : Instr} {s t : State} (h : exec i s = .next t) :
    ∃ p1 p2 d, operands s.cfg.oddPairPolicy i.rs1 i.rs2 i.rd = .pairs p1 p2 d ∧
      t = afterOp i.opcode.setsCc d (opFn s.cfg i.opcode (s.pairRead p1) (s.pairRead p2)) s := by
  rcases exec_cases i s with ⟨p1, p2, d, ho, he⟩ | ⟨f, _, he⟩ | ⟨_, he⟩
  · exact ⟨p1, p2, d, ho, by rw [he] at h; injection h with h; exact h.symm⟩
  · rw [he] at h; exact nomatch h
  · rw [he] at h; exact nomatch h

section AfterOp

variable (cc : Bool) (d : Pair) (res : DWord) (s : State)

@[simp] theorem afterOp_cfg : (afterOp cc d res s).cfg = s.cfg := by unfold afterOp; cases cc <;> simp
@[simp] theorem afterOp_text : (afterOp cc d res s).text = s.text := by unfold afterOp; cases cc <;> simp
@[simp] theorem afterOp_endPc : (afterOp cc d res s).endPc = s.endPc := by unfold afterOp; cases cc <;> simp
@[simp] theorem afterOp_refused : (afterOp cc d res s).refused = s.refused := by unfold afterOp; cases cc <;> simp
@[simp] theorem afterOp_faulted : (afterOp cc d res s).faulted = s.faulted := by unfold afterOp; cases cc <;> simp
@[simp] theorem afterOp_pc : (afterOp cc d res s).pc = s.npc := by unfold afterOp; cases cc <;> simp
@[simp] theorem afterOp_npc : (afterOp cc d res s).npc = s.npc + 4#32 := by unfold afterOp; cases cc <;> simp
theorem afterOp_readReg (n : RegNum) :
    (afterOp cc d res s).readReg n = (s.pairWrite d res).readReg n := by unfold afterOp; cases cc <;> simp
theorem afterOp_icc_plain : (afterOp false d res s).icc = s.icc := by simp [afterOp]
theorem afterOp_draws_plain : (afterOp false d res s).draws = s.draws := by simp [afterOp]
theorem afterOp_z : (afterOp true d res s).icc.z = (res == 0#64) := by simp [afterOp]

end AfterOp

/-- The numbers of a resolved pair are `n` and `n + 1` for some `n`. -/
theorem pairForm_pair {policy : OddPairPolicy} {n : RegNum} {p : Pair} (h : pairForm policy n = .pair p) :
    p.second = p.first + 1#5 := by
  unfold pairForm at h
  split at h
  · cases policy with
    | refuse => exact nomatch h
    | trapIllegal => exact nomatch h
    | alignDown => injection h with h; rw [← h]; rfl
    | consecutive =>
      simp only at h
      split at h
      · exact nomatch h
      · injection h with h; rw [← h]; rfl
  · injection h with h; rw [← h]; rfl

/-- The first register of a resolved pair is odd only for an odd number under `consecutive` (R19). -/
theorem pairForm_parity {policy : OddPairPolicy} {n : RegNum} {p : Pair} (h : pairForm policy n = .pair p) :
    isOdd p.first = (decide (policy = .consecutive) && isOdd n) := by
  have even_and : ∀ m : RegNum, isOdd (m &&& 0x1E#5) = false := by decide
  unfold pairForm at h
  split at h
  · cases policy with
    | refuse => exact nomatch h
    | trapIllegal => exact nomatch h
    | alignDown => injection h with h; rw [← h]; exact even_and n
    | consecutive =>
      simp only at h
      split at h
      · exact nomatch h
      · injection h with h; rw [← h]; simp [pairAt]
  · rename_i hn
    injection h with h
    simp only [Bool.not_eq_true] at hn
    rw [← h, hn, Bool.and_false]
    exact hn

theorem add_one_ne (n : RegNum) : n ≠ n + 1#5 := by revert n; decide

/-- What a resolved operand triple says of each field. -/
theorem operands_pairs {policy : OddPairPolicy} {a b d : RegNum} {p1 p2 pd : Pair} :
    operands policy a b d = .pairs p1 p2 pd ↔
      pairForm policy a = .pair p1 ∧ pairForm policy b = .pair p2 ∧ pairForm policy d = .pair pd := by
  unfold operands
  cases pairForm policy d <;> cases pairForm policy a <;> cases pairForm policy b <;> simp

theorem pairForm_even {policy : OddPairPolicy} {n : RegNum} (h : isOdd n = false) :
    pairForm policy n = .pair (pairAt n) := by simp [pairForm, h]

theorem operands_even {policy : OddPairPolicy} {a b d : RegNum} (ha : isOdd a = false) (hb : isOdd b = false)
    (hd : isOdd d = false) : operands policy a b d = .pairs (pairAt a) (pairAt b) (pairAt d) :=
  operands_pairs.2 ⟨pairForm_even ha, pairForm_even hb, pairForm_even hd⟩

/-- The registers after a completed operation whose destination pair was resolved. -/
theorem afterOp_readReg_pair {policy : OddPairPolicy} {n : RegNum} {d : Pair} (h : pairForm policy n = .pair d)
    (cc : Bool) (res : DWord) (s : State) (r : RegNum) :
    (afterOp cc d res s).readReg r =
      if r = 0#5 then 0#32 else if r = d.first then firstHalf s.cfg d res
      else if r = d.second then secondHalf s.cfg d res else s.readReg r := by
  rw [afterOp_readReg, State.readReg_pairWrite]
  rw [pairForm_pair h]; exact add_one_ne _

end Sys2Proof.Machine
end

