-- ==== Sys2Proof/Laws/PerInstr.lean ====
section
/-! SUPPORT. A statement about every instruction as syntax, one lemma per constructor. -/

namespace Sys2Proof.Laws.FixedBits

/-- Whatever its op3, an instruction's word has the fixed bits of R46: op = 2, i = 0, unused bits 0, AJIT bit 1. -/
def Statement (i : Instr) : Prop :=
  ∀ (c : Config) (w : Word), encodeWord c i = some w → w &&& 0xC0003FE0#32 = 0x80000020#32

/-- Every word the encoder builds has the fixed bits. -/
theorem of_encodeFields (y : Op3) (rs1 rs2 rd : RegNum) :
    encodeFields y rs1 rs2 rd &&& 0xC0003FE0#32 = 0x80000020#32 := by
  rw [encodeFields_eq, and_fixedMask]
  simp only [opField_wordOfFields, iField_wordOfFields, unusedField_wordOfFields, ajitField_wordOfFields]
  decide

theorem of_encodeWord (i : Instr) : Statement i := by
  intro c w h
  obtain ⟨y, _, rfl⟩ := Option.map_eq_some_iff.1 h
  exact of_encodeFields ..

theorem ord (rs1 rs2 rd : RegNum) : Statement (.ord rs1 rs2 rd) := of_encodeWord _
theorem ordcc (rs1 rs2 rd : RegNum) : Statement (.ordcc rs1 rs2 rd) := of_encodeWord _
theorem ordn (rs1 rs2 rd : RegNum) : Statement (.ordn rs1 rs2 rd) := of_encodeWord _
theorem ordncc (rs1 rs2 rd : RegNum) : Statement (.ordncc rs1 rs2 rd) := of_encodeWord _
theorem xordcc (rs1 rs2 rd : RegNum) : Statement (.xordcc rs1 rs2 rd) := of_encodeWord _
theorem xnord (rs1 rs2 rd : RegNum) : Statement (.xnord rs1 rs2 rd) := of_encodeWord _
theorem xnordcc (rs1 rs2 rd : RegNum) : Statement (.xnordcc rs1 rs2 rd) := of_encodeWord _
theorem andd (rs1 rs2 rd : RegNum) : Statement (.andd rs1 rs2 rd) := of_encodeWord _
theorem anddcc (rs1 rs2 rd : RegNum) : Statement (.anddcc rs1 rs2 rd) := of_encodeWord _
theorem anddn (rs1 rs2 rd : RegNum) : Statement (.anddn rs1 rs2 rd) := of_encodeWord _
theorem anddncc (rs1 rs2 rd : RegNum) : Statement (.anddncc rs1 rs2 rd) := of_encodeWord _

end Sys2Proof.Laws.FixedBits
end

