-- ==== Sys2Proof/Laws/Run.lean ====
section
/-! SUPPORT. Everything a step and a run can do, said once. -/

namespace Sys2Proof.Machine

/-- A run of no step stays where it is. -/
theorem runs_zero {s t : State} : Runs 0 s t ↔ t = s := by
  unfold Runs
  constructor
  · intro h; injection h with h; exact h.symm
  · rintro rfl; rfl

/-- A run of `k + 1` steps is a step and a run of `k`. -/
theorem runs_succ {k : Nat} {s t : State} : Runs (k + 1) s t ↔ ∃ u, step s = .next u ∧ Runs k u t := by
  unfold Runs
  constructor
  · intro h
    cases hs : step s with
    | next u =>
      refine ⟨u, rfl, ?_⟩
      simp only [Host.Core.run] at h
      rw [show Sys2Proof.core.step s = .next u from hs] at h
      exact h
    | fault r =>
      simp only [Host.Core.run] at h
      rw [show Sys2Proof.core.step s = .fault r from hs] at h
      exact nomatch h
    | refused r =>
      simp only [Host.Core.run] at h
      rw [show Sys2Proof.core.step s = .refused r from hs] at h
      exact nomatch h
  · rintro ⟨u, hs, h⟩
    simp only [Host.Core.run]
    rw [show Sys2Proof.core.step s = .next u from hs]
    exact h

/-- A step to a next state came from an unmarked state that is not final, and ran the instruction it fetched. -/
theorem step_next {s t : State} (h : step s = .next t) :
    s.refused = false ∧ s.faulted = false ∧ s.endPc ≠ some s.pc ∧
      ∃ w i, s.fetch = some w ∧ decodeWord s.cfg w = .instr i ∧ exec i s = .next t := by
  unfold step at h
  split at h
  · exact nomatch h
  case isFalse hr =>
    split at h
    · exact nomatch h
    case isFalse hf =>
      split at h
      · exact nomatch h
      case isFalse he =>
        refine ⟨by simpa using hr, by simpa using hf, he, ?_⟩
        split at h
        · exact nomatch h
        case h_2 w hw =>
          refine ⟨w, ?_⟩
          cases hd : decodeWord s.cfg w <;> rw [hd] at h <;> simp [dispatchDecoded, raiseIllegal] at h
          exact ⟨_, hw, rfl, h⟩

end Sys2Proof.Machine
end

