-- ==== Sys2Proof/Laws/Text.lean ====
section
/-! SUPPORT. The program text: reading after writing, and every operation keeps the canonical form (R31 to R33). -/

namespace Sys2Proof.Machine

@[simp] theorem Memory.read_nil (a : Nat) : Memory.read [] a = none := rfl

/-- Every address of a canonical text is a 32-bit address. -/
theorem Memory.wf_cons (cell : Host.Cell) (rest : Memory) :
    Memory.wf (cell :: rest) = true ↔
      cell.1 < 2 ^ 32 ∧ (∀ d ∈ rest, cell.1 < d.1) ∧ Memory.wf rest = true := by
  simp [Memory.wf, and_assoc]

/-- Below the first address of a list nothing is listed. -/
theorem Memory.read_eq_none {m : Memory} {a : Nat} (h : ∀ d ∈ m, d.1 ≠ a) : Memory.read m a = none := by
  induction m with
  | nil => rfl
  | cons cell rest ih =>
    have h1 : cell.1 ≠ a := h cell (by simp)
    simpa [Memory.read, h1] using ih (fun d hd => h d (by simp [hd]))

/-- A byte written is read back, and every other address reads as before. -/
theorem Memory.read_write (m : Memory) (a b : Nat) (v : Byte) (h : Memory.wf m = true) :
    Memory.read (Memory.write m a v) b = if b = a then some v else Memory.read m b := by
  induction m with
  | nil => by_cases e : a = b <;> simp [Memory.write, Memory.read, e, eq_comm]
  | cons cell rest ih =>
    obtain ⟨_, hlt, hrest⟩ := (Memory.wf_cons cell rest).1 h
    unfold Memory.write
    by_cases h1 : a < cell.1
    · by_cases e : b = a
      · simp [h1, e, Memory.read]
      · simp [h1, e, Memory.read, Ne.symm e]
    · by_cases h2 : a = cell.1
      · by_cases e : b = a
        · simp [h2, e, Memory.read]
        · have : cell.1 ≠ b := fun q => e (by rw [← q, h2])
          simp [h2, Memory.read, this, Ne.symm this]
      · by_cases e : b = a
        · have : cell.1 ≠ a := fun q => h2 q.symm
          have w := ih hrest
          rw [e] at w
          simp [h1, h2, e, Memory.read, this, w]
        · simp [h1, h2, e, Memory.read, ih hrest]

/-- The addresses after a write are those before it and the one written. -/
theorem Memory.mem_write {m : Memory} {a : Nat} {v : Byte} {d : Host.Cell} (h : d ∈ Memory.write m a v) :
    d.1 = a ∨ d ∈ m := by
  induction m with
  | nil => simp [Memory.write] at h; simp [h]
  | cons cell rest ih =>
    unfold Memory.write at h
    split at h
    · rcases List.mem_cons.1 h with rfl | h'
      · exact .inl rfl
      · exact .inr h'
    · split at h
      · rcases List.mem_cons.1 h with rfl | h'
        · exact .inl rfl
        · exact .inr (List.mem_cons_of_mem _ h')
      · rcases List.mem_cons.1 h with rfl | h'
        · exact .inr (by simp)
        · rcases ih h' with h'' | h''
          · exact .inl h''
          · exact .inr (List.mem_cons_of_mem _ h'')

/-- A write at a 32-bit address keeps the canonical form. -/
theorem Memory.wf_write {m : Memory} {a : Nat} (v : Byte) (h : Memory.wf m = true) (ha : a < 2 ^ 32) :
    Memory.wf (Memory.write m a v) = true := by
  induction m with
  | nil => simp [Memory.write, Memory.wf]; exact ha
  | cons cell rest ih =>
    obtain ⟨hc, hlt, hrest⟩ := (Memory.wf_cons cell rest).1 h
    unfold Memory.write
    split
    case isTrue h1 =>
      refine (Memory.wf_cons _ _).2 ⟨ha, ?_, h⟩
      intro d hd
      rcases List.mem_cons.1 hd with rfl | hd
      · exact h1
      · exact lt_trans h1 (hlt d hd)
    case isFalse h1 =>
      split
      case isTrue h2 => exact (Memory.wf_cons _ _).2 ⟨ha, fun d hd => h2 ▸ hlt d hd, hrest⟩
      case isFalse h2 =>
        refine (Memory.wf_cons _ _).2 ⟨hc, ?_, ih hrest⟩
        intro d hd
        rcases Memory.mem_write hd with e | hd
        · rw [e]; omega
        · exact hlt d hd

/-- `MemWrite` keeps the canonical form, whatever the address and the bytes. -/
theorem memWrite_wf {m : Memory} (addr : Word) (bs : List Byte) (h : Memory.wf m = true) :
    Memory.wf (memWrite m addr bs) = true := by
  induction bs generalizing m addr with
  | nil => exact h
  | cons b bs ih => exact ih _ (Memory.wf_write b h addr.isLt)

/-- The four bytes of an aligned word stand at four addresses that do not wrap. -/
theorem toNat_add_of_aligned {addr : Word} (h : isAligned addr = true) {k : Nat} (hk : k < 4) :
    (addr + BitVec.ofNat 32 k).toNat = addr.toNat + k := by
  have h1 : addr.toNat % 4 = 0 := by
    have := congrArg BitVec.toNat (eq_of_beq h)
    simpa [BitVec.extractLsb'_toNat] using this
  have := addr.isLt
  rw [BitVec.toNat_add, BitVec.toNat_ofNat]
  omega

/-- The word placed at an aligned address is the word `TEXT` holds there (R33). -/
theorem textAt_memWrite {m : Memory} {addr : Word} (b0 b1 b2 b3 : Byte) (h : Memory.wf m = true)
    (ha : isAligned addr = true) :
    textAt (memWrite m addr [b0, b1, b2, b3]) addr = some (wordOfBytes b0 b1 b2 b3) := by
  have e1 := toNat_add_of_aligned ha (k := 1) (by decide)
  have e2 := toNat_add_of_aligned ha (k := 2) (by decide)
  have e3 := toNat_add_of_aligned ha (k := 3) (by decide)
  have a2 : addr + 1#32 + 1#32 = addr + 2#32 := by rw [BitVec.add_assoc]; rfl
  have a3 : addr + 2#32 + 1#32 = addr + 3#32 := by rw [BitVec.add_assoc]; rfl
  have w0 := Memory.wf_write b0 h addr.isLt
  have w1 := Memory.wf_write b1 w0 (addr + 1#32).isLt
  have w2 := Memory.wf_write b2 w1 (addr + 2#32).isLt
  simp only [textAt, ha, if_true, memRead, memWrite, a2, a3]
  rw [e1] at w1 w2
  rw [e2] at w2
  simp [Memory.read_write, w0, w1, w2, h, e1, e2, e3]

/-- `TEXT` at an address depends on the bytes of the text alone. -/
theorem textAt_congr {m m' : Memory} (h : ∀ a, Memory.read m a = Memory.read m' a) (addr : Word) :
    textAt m addr = textAt m' addr := by
  have : ∀ n a, memRead m a n = memRead m' a n := by
    intro n
    induction n with
    | zero => intro a; rfl
    | succ n ih => intro a; simp [memRead, h, ih]
  simp [textAt, this]

end Sys2Proof.Machine
end

