-- ==== Sys2Proof/Tests/Slice0.lean ====
section
/-! SUPPORT. Tests. Expected results are those of 95_test_vectors.md, or worked by hand from the rule a test names. The
last section shows that the hypotheses of each statement can be met. -/

namespace Sys2Proof.Tests

open Sys2Proof Sys2Proof.Machine Sys2Proof.Claims

/-! ### Helpers -/

/-- The start state of 95 section 3.2, from reset. -/
def start : State :=
  ((((((State.reset.writeReg 1 0x0000FFFF#32).writeReg 2 0x11111111#32).writeReg 3 0x22222222#32).writeReg 4
    0xF0F0F0F0#32).writeReg 5 0x0F0F0F0F#32).writeReg 6 0x00FF00FF#32).writeReg 7 0xFF00FF00#32

/-- The same with Z set, so that a CC instruction clearing it shows. -/
def startZ : State := { start with icc := ⟨false, true, false, false⟩ }

/-- A state with the policies changed. -/
def withOdd (p : OddPairPolicy) (s : State) : State := { s with cfg := { s.cfg with oddPairPolicy := p } }
def withNvc (p : IccNvcPolicy) (s : State) : State := { s with cfg := { s.cfg with iccNvcPolicy := p } }
def withHigh (p : PairHighWord) (s : State) : State := { s with cfg := { s.cfg with pairHighWord := p } }
def withXnor (p : XnorFormula) (s : State) : State := { s with cfg := { s.cfg with xnorFormula := p } }

/-- Whether an outcome is a next state with a property. -/
def nextHas (p : State → Bool) : Host.Outcome State Fault Refusal → Bool
  | .next t => p t
  | .fault _ => false
  | .refused _ => false

/-- Registers `n` and `m`, and Z, after the instruction. -/
def gives (i : Instr) (s : State) (n : RegNum) (v : Word) (m : RegNum) (u : Word) (z : Bool) : Bool :=
  nextHas (fun t => t.readReg n == v && t.readReg m == u && t.icc.z == z) (exec i s)

/-- The start state with the word at address 0, where reset's `pc` points, ready to run. -/
def placed (w : Word) : State := start.placeWord w

/-! ### WellFormed: each check refuses -/

theorem test_wf_even : Instr.wf Config.default (.ord 4 6 2) = true := by decide
theorem test_wf_rd_odd : Instr.wf Config.default (.ord 4 6 3) = false := by decide
theorem test_wf_rs1_odd : Instr.wf Config.default (.anddcc 5 6 2) = false := by decide
theorem test_wf_rs2_odd : Instr.wf Config.default (.xnord 4 7 2) = false := by decide
theorem test_wf_consecutive_31 :
    Instr.wf { Config.default with oddPairPolicy := .consecutive } (.ord 4 6 31) = false := by decide
theorem test_wf_xnordcc_absent : Instr.wf { Config.default with xnordccOp3 := none } (.xnordcc 4 6 2) = false := by
  decide
theorem test_op3_clash : Config.op3Distinct { Config.default with xnordccOp3 := some 0x07#6 } = false := by decide

/-! ### Decoding: the words of 95 section 2.1, the pattern of each written out bit by bit from R49 -/

/-- 10 00010 000010 00100 0 0000000 1 00110 -/
theorem test_decode_ord :
    decodeWord Config.default (0b10#2 ++ 0b00010#5 ++ 0b000010#6 ++ 0b00100#5 ++ 0b0#1 ++ 0b0000000#7 ++ 0b1#1 ++
      0b00110#5) = .instr (.ord 4 6 2) := by decide
theorem test_decode_ordcc : decodeWord Config.default 0x84910026#32 = .instr (.ordcc 4 6 2) := by decide
theorem test_decode_ordn : decodeWord Config.default 0xBC37003A#32 = .instr (.ordn 28 26 30) := by decide
theorem test_decode_ordncc : decodeWord Config.default 0x94B2002C#32 = .instr (.ordncc 8 12 10) := by decide
/-- 10 00010 010011 00100 0 0000000 1 00110 -/
theorem test_decode_xordcc :
    decodeWord Config.default (0b10#2 ++ 0b00010#5 ++ 0b010011#6 ++ 0b00100#5 ++ 0b0#1 ++ 0b0000000#7 ++ 0b1#1 ++
      0b00110#5) = .instr (.xordcc 4 6 2) := by decide
theorem test_decode_xnord : decodeWord Config.default 0x903A8020#32 = .instr (.xnord 10 0 8) := by decide
theorem test_decode_xnordcc : decodeWord Config.default 0x84B90026#32 = .instr (.xnordcc 4 6 2) := by decide
theorem test_decode_andd : decodeWord Config.default 0xBC0F803E#32 = .instr (.andd 30 30 30) := by decide
/-- 10 00010 010001 00100 0 0000000 1 00110 -/
theorem test_decode_anddcc :
    decodeWord Config.default (0b10#2 ++ 0b00010#5 ++ 0b010001#6 ++ 0b00100#5 ++ 0b0#1 ++ 0b0000000#7 ++ 0b1#1 ++
      0b00110#5) = .instr (.anddcc 4 6 2) := by decide
theorem test_decode_anddn : decodeWord Config.default 0x80290026#32 = .instr (.anddn 4 6 0) := by decide
theorem test_decode_anddncc : decodeWord Config.default 0x84A90026#32 = .instr (.anddncc 4 6 2) := by decide

/-- The bytes of 95 section 2.1: 84 11 00 26 at increasing addresses. -/
theorem test_decode_bytes :
    decodeBytes Config.default [0x84#8, 0x11#8, 0x00#8, 0x26#8, 0x99#8] = (.instr (.ord 4 6 2), [0x99#8]) := by decide
theorem test_decode_few_bytes : (decodeBytes Config.default [0x84#8, 0x11#8, 0x00#8]).1 = .truncated := by decide
theorem test_table_word : decodeTableWord 32 0x80B80020 = some (.xnordcc 0 0 0) := by decide

/-- The refusals of 95 section 2.2. -/
theorem test_refuse_out_of_scope :
    [0x81F80020#32, 0x80000020#32, 0x80102020#32, 0x84110006#32, 0x00000000#32, 0x44110026#32, 0xC4110026#32,
      0x80180061#32].all (fun w => decodeWord Config.default w == .outOfScopeWord) = true := by decide
theorem test_refuse_unused :
    [0x84110066#32, 0x84111026#32, 0x84111FE6#32].all
      (fun w => decodeWord Config.default w == .unusedBitsNonZero) = true := by decide
theorem test_ignore_unused :
    decodeWord { Config.default with unusedBitsPolicy := .ignore } 0x84111FE6#32 = .instr (.ord 4 6 2) := by decide
theorem test_refuse_odd :
    [0x86110026#32, 0x84114026#32, 0x84110027#32].map (decodeWord Config.default) =
      [.oddPairRegister .rd, .oddPairRegister .rs1, .oddPairRegister .rs2] := by decide
theorem test_refuse_rd_31 :
    decodeWord { Config.default with oddPairPolicy := .consecutive } 0xBE110026#32 = .oddPairRegister .rd := by decide
theorem test_absent_xnordcc :
    decodeWord { Config.default with xnordccOp3 := none } 0x80B80020#32 = .outOfScopeWord := by decide

/-- Column `%r28, %r26, %r30` of 95 section 2.1. -/
theorem test_encode :
    [Instr.ord 28 26 30, .xnordcc 28 26 30, .anddncc 28 26 30].map (encodeWord Config.default) =
      [some 0xBC17003A#32, some 0xBCBF003A#32, some 0xBCAF003A#32] := by decide
theorem test_encode_bytes : encode Config.default (.ord 4 6 2) = some [0x84#8, 0x11#8, 0x00#8, 0x26#8] := by decide

/-! ### Assembler (R15, R56, R58) -/

theorem test_disassemble : disassemble (.xnordcc 10 8 0) = "xnordcc %r10, %r8, %r0" := by decide
theorem test_assemble : assemble "anddn" 8 12 16 = some (.anddn 8 12 16) := by decide
theorem test_register_names :
    [regOfName "%o0", regOfName "%l7", regOfName "%i0", regOfName "%fp", regOfName "%r32"] =
      [some 8, some 23, some 24, some 30, none] := by decide

/-! ### Execution: 95 section 3.2, cases a (rd = 0) to e (rd = rs1) -/

theorem test_ord_rd0 : gives (.ord 4 6 0) startZ 0 0 1 0xFF0FFF0F#32 true = true := by decide
theorem test_ord_rd_is_rs1 : gives (.ord 4 6 4) start 4 0xF0FFF0FF#32 5 0xFF0FFF0F#32 false = true := by decide
theorem test_ordcc_rs2_0 : gives (.ordcc 4 0 2) startZ 2 0xF0F0F0F0#32 3 0x0F0FFFFF#32 false = true := by decide
/-- R60: with all four source words zero, Z = 1. -/
theorem test_ordcc_zero : gives (.ordcc 8 10 2) start 2 0 3 0 true = true := by decide
theorem test_ordn_rs1_0 : gives (.ordn 0 6 2) startZ 2 0xFF00FF00#32 3 0x00FFFFFF#32 true = true := by decide
theorem test_ordn_rd0 : gives (.ordn 4 6 0) start 0 0 1 0x0FFF0FFF#32 false = true := by decide
theorem test_ordncc_same : gives (.ordncc 2 2 2) startZ 2 0xFFFFFFFF#32 3 0xFFFFFFFF#32 false = true := by decide
/-- R62: `a = 0` and `b` all ones give Z = 1. -/
theorem test_ordncc_zero :
    gives (.ordncc 8 10 2) ((start.writeReg 10 0xFFFFFFFF#32).writeReg 11 0xFFFFFFFF#32) 2 0 3 0 true = true := by
  decide
theorem test_xordcc_same : gives (.xordcc 2 2 2) start 2 0 3 0 true = true := by decide
theorem test_xordcc_rd_is_rs1 : gives (.xordcc 4 6 4) startZ 4 0xF00FF00F#32 5 0xF00FF00F#32 false = true := by decide
theorem test_xnord_rs2_0 : gives (.xnord 4 0 2) startZ 2 0x0F0F0F0F#32 3 0xF0F00F0F#32 true = true := by decide
/-- 95 section 3.1: under `literal` the result is that of the exclusive OR table. -/
theorem test_xnord_literal :
    gives (.xnord 4 6 2) (withXnor .literal start) 2 0xF00FF00F#32 3 0xF00FF00F#32 false = true := by decide
theorem test_xnordcc_rd0 : gives (.xnordcc 4 6 0) startZ 0 0 1 0x0FF00FF0#32 false = true := by decide
/-- R65: complementary pairs give Z = 1. -/
theorem test_xnordcc_zero :
    gives (.xnordcc 4 8 2) ((start.writeReg 8 0x0F0F0F0F#32).writeReg 9 0xF0F0F0F0#32) 2 0 3 0 true = true := by
  decide
theorem test_andd_rs1_0 : gives (.andd 0 6 2) startZ 2 0 3 0x0000FF00#32 true = true := by decide
theorem test_andd_rd_is_rs1 : gives (.andd 4 6 4) start 4 0x00F000F0#32 5 0x0F000F00#32 false = true := by decide
theorem test_anddcc_rs2_0 : gives (.anddcc 4 0 2) startZ 2 0 3 0x00000F0F#32 false = true := by decide
/-- R67: a zero low word and a non-zero high word give Z = 0. -/
theorem test_anddcc_high_only :
    gives (.anddcc 8 8 8) ((startZ.writeReg 8 1#32).writeReg 9 0#32) 8 1 9 0 false = true := by decide
theorem test_anddn_rd0 : gives (.anddn 4 6 0) startZ 0 0 1 0x000F000F#32 true = true := by decide
theorem test_anddn_rs1_0 : gives (.anddn 0 6 2) start 2 0 3 0x000000FF#32 false = true := by decide
theorem test_anddncc_rs2_0 : gives (.anddncc 4 0 2) startZ 2 0xF0F0F0F0#32 3 0x0F0F0000#32 false = true := by decide
theorem test_anddncc_same : gives (.anddncc 2 2 2) start 2 0 3 0 true = true := by decide

/-! ### The policies -/

/-- 95 section 3.1, N even and N odd of `0000000080000000 | 7FFFFFFF7FFFFFFF`: N is 0 and then 1. -/
theorem test_v8like_n :
    [PairHighWord.even, .odd].map (fun h =>
      nextHas (fun t => t.icc.n && !t.icc.v && !t.icc.c)
        (exec (.ordcc 8 10 2) (withHigh h (withNvc .v8like (((start.writeReg 9 0x80000000#32).writeReg 10
          0x7FFFFFFF#32).writeReg 11 0x7FFFFFFF#32))))) = [false, true] := by decide
theorem test_unchanged_nvc :
    nextHas (fun t => decide (t.icc = ⟨true, true, true, true⟩))
      (exec (.xordcc 2 2 2) { withNvc .unchanged start with icc := ⟨true, false, true, true⟩ }) = true := by decide
theorem test_any_takes_three_draws : nextHas (fun t => t.draws == 3) (exec (.xordcc 2 2 2) start) = true := by decide
theorem test_psr_field : Icc.psrField ⟨true, false, true, true⟩ = 0b1011#4 := by decide
/-- 95 section 3.3. -/
theorem test_align_down :
    gives (.ord 5 7 3) (withOdd .alignDown start) 2 0xF0FFF0FF#32 3 0xFF0FFF0F#32 false = true := by decide
/-- 95 section 3.3. -/
theorem test_consecutive :
    gives (.ord 5 7 3) (withOdd .consecutive (start.writeReg 8 0x12345678#32)) 3 0xFF0FFF0F#32 4 0x12FF56FF#32
      false = true := by decide
/-- R19: an odd pair has its first register high whatever `PAIR_HIGH_WORD` says, so the registers are those above and N
is bit 31 of `x[3]`. -/
theorem test_consecutive_high_odd :
    gives (.ord 5 7 3) (withHigh .odd (withOdd .consecutive (start.writeReg 8 0x12345678#32))) 3 0xFF0FFF0F#32 4
      0x12FF56FF#32 false = true := by decide

theorem test_consecutive_n :
    nextHas (fun t => t.icc.n) (exec (.ordcc 5 7 3) (withNvc .v8like (withHigh .odd (withOdd .consecutive
      (start.writeReg 8 0x12345678#32))))) = true := by decide
/-- R17 and R19, by hand: `a = x[5] ++ x[4]` (even, swapped), `b = x[7] ++ x[8]` (odd), and the even rd has its low half
in `x[2]`. -/
theorem test_consecutive_mixed :
    gives (.ord 4 7 2) (withHigh .odd (withOdd .consecutive (start.writeReg 8 0x12345678#32))) 2 0xF2F4F6F8#32 3
      0xFF0FFF0F#32 false = true := by decide

/-! ### Steps: 95 section 4, P5 and P6, one step each -/

/-- P6, step 1: the word at `pc` runs, and the counters advance. -/
theorem test_step_runs :
    nextHas (fun t => t.readReg 2 == 0xF0FFF0FF#32 && t.pc == 4#32 && t.npc == 8#32) (step (placed 0x84110026#32)) =
      true := by decide
/-- P5: in a delay slot `npc` is the branch target. -/
theorem test_step_delay_slot :
    nextHas (fun t => t.pc == 0x40000100#32 && t.npc == 0x40000104#32)
      (step { placed 0x84110026#32 with npc := 0x40000100#32 }) = true := by decide
/-- P6a to P6c: what each refusal records. -/
theorem test_step_refusals :
    [0x80180020#32, 0x84110066#32, 0x84110027#32].map (fun w =>
      match step (placed w) with
      | .refused r => some r
      | .next _ => none
      | .fault _ => none) =
      [some (.outOfScopeWord 0 0x80180020#32), some (.unusedBitsNonZero 0 0x84110066#32),
        some (.oddPairRegister .rs2 0 (some 0x84110027#32))] := by decide
/-- P6d and the states of R28 and R88: no step. -/
theorem test_no_step :
    [start, { placed 0x84110026#32 with refused := true }, { placed 0x84110026#32 with faulted := true },
      { placed 0x84110026#32 with endPc := some 0#32 }, { placed 0x84110026#32 with pc := 2#32 }].map (fun s =>
      match step s with
      | .fault r => some r
      | .next _ => none
      | .refused _ => none) =
      [some .stuckOutsideText, some .markedRefused, some .markedFaulted, some .runIsFinal,
        some .stuckOutsideText] := by decide
/-- R72 and R73: only the mark changes. -/
theorem test_marks :
    (placed 0x80180020#32).successor = some { placed 0x80180020#32 with refused := true } ∧
    (withOdd .trapIllegal (placed 0x86114027#32)).successor =
      some { withOdd .trapIllegal (placed 0x86114027#32) with faulted := true } := by decide
theorem test_reset_is_stuck : step State.reset = .fault .stuckOutsideText := rfl
theorem test_reset_runs_a_table_row :
    nextHas (fun t => t.pc == 4#32) (step (State.reset.withFetchWord 32 0x80A80020)) = true := by decide

/-! ### Witnesses: the hypotheses of each statement can be met -/

/-- OrdWritesBitwiseOr, OrdccWritesOrAndSetsFlags, OrdnWritesOrWithComplement, OrdnccWritesOrComplementSetsFlags,
XordccWritesXorAndSetsFlags, XnordWritesXnorByFormula, XnordccWritesXnorAndSetsFlags, AnddWritesBitwiseAnd,
AnddccWritesAndSetsFlags, AnddnClearsBitsOfSecond, AnddnccClearsBitsAndSetsFlags and ZeroFlagTestsOfCcInstructions: the
lowest and the highest even register numbers. -/
theorem witness_even_operands : EvenReg 0 ∧ EvenReg 2 ∧ EvenReg 30 := by unfold EvenReg; decide

/-- ZeroFlagTestsOfCcInstructions, clause of XNORDCC. -/
theorem witness_ZeroFlagTestsOfCcInstructions : start.cfg.xnorFormula = .complement := rfl

theorem witness_IdiomsCopyComplementAndClear :
    (start.writeReg 1 0#32).readReg 1#5 = 0#32 ∧ (start.writeReg 1 0#32).cfg.xnorFormula = .complement ∧
    (EvenReg 0 ∧ EvenReg 30) := ⟨by decide, rfl, by unfold EvenReg; decide⟩

/-- EveryInstructionKeepsItsFrame, with a plain instruction and a CC instruction, and a register outside the pair. -/
theorem witness_EveryInstructionKeepsItsFrame :
    (∃ t, exec (.andd 4 6 0) start = .next t) ∧ (∃ t, exec (.anddcc 4 6 30) start = .next t) ∧
    Opcode.setsCc .andd = false ∧ pairForm start.cfg.oddPairPolicy 30 = .pair ⟨30, 31⟩ ∧
    (29#5 ≠ 30#5 ∧ 29#5 ≠ 31#5) := ⟨⟨_, rfl⟩, ⟨_, rfl⟩, rfl, by decide, by decide⟩

theorem witness_NoInstructionTouchesMemory : ∃ t, exec (.ordncc 4 6 2) (placed 0x84110026#32) = .next t := ⟨_, rfl⟩

theorem witness_CountersDoNotInfluenceResults : ∃ t, exec (.xnord 4 6 2) start = .next t := ⟨_, rfl⟩

theorem witness_ConditionCodesAreNeverRead :
    ∃ t, exec (.xordcc 4 6 2) start = .next t ∧ Opcode.setsCc .xordcc = true := ⟨_, rfl, rfl⟩

/-- All even, and all odd under `consecutive`, where N is fixed even under `v8like`. -/
theorem witness_HighHalfChoiceIsInvisible :
    (∃ t, exec (.ordcc 4 6 2) start = .next t) ∧ start.cfg.iccNvcPolicy ≠ .v8like ∧
    start.cfg.oddPairPolicy ≠ .consecutive ∧ (∃ t, exec (.ordcc 5 7 3) (withOdd .consecutive start) = .next t) ∧
    ((5#5).toNat % 2 = (3#5).toNat % 2 ∧ (7#5).toNat % 2 = (3#5).toNat % 2) ∧
    ((withOdd .consecutive start).cfg.oddPairPolicy = .consecutive ∧ ¬EvenReg (Instr.ordcc 5 7 3).rd) :=
  ⟨⟨_, rfl⟩, by decide, by decide, ⟨_, rfl⟩, by decide, rfl, by unfold EvenReg; decide⟩

theorem witness_RefusingDefaultsHoldForEverySetting :
    start.cfg.oddPairPolicy = .refuse ∧ start.cfg.unusedBitsPolicy = .refuse ∧
    decodeWord start.cfg 0xBCBF803E#32 = .instr (.xnordcc 30 30 30) := by decide

/-- One odd field at a time, at the lowest and the highest odd number. -/
theorem witness_OddFieldIsRefused :
    start.cfg.oddPairPolicy = .refuse ∧ ¬EvenReg (Instr.ord 4 6 31).rd ∧
    (EvenReg (Instr.ord 1 6 2).rd ∧ ¬EvenReg (Instr.ord 1 6 2).rs1) ∧
    (EvenReg (Instr.ord 4 31 2).rd ∧ EvenReg (Instr.ord 4 31 2).rs1 ∧ ¬EvenReg (Instr.ord 4 31 2).rs2) := by
  unfold EvenReg; decide

/-- One odd field at a time; and a state that fetches such a word. -/
theorem witness_OddFieldRaisesUnderTrapPolicy :
    (withOdd .trapIllegal (placed 0x86114027#32)).cfg.oddPairPolicy = .trapIllegal ∧
    (¬EvenReg (Instr.ord 5 6 2).rs1 ∧ ¬EvenReg (Instr.ord 4 7 2).rs2 ∧ ¬EvenReg (Instr.ord 4 6 3).rd) ∧
    Running (withOdd .trapIllegal (placed 0x86114027#32)) ∧
    (withOdd .trapIllegal (placed 0x86114027#32)).fetch = some 0x86114027#32 ∧
    SpellsUpToUnused (withOdd .trapIllegal (placed 0x86114027#32)).cfg 0x86114027#32 (.ord 5 7 3) ∧
    UnusedAccepted (withOdd .trapIllegal (placed 0x86114027#32)).cfg 0x86114027#32 := by
  unfold EvenReg Running SpellsUpToUnused UnusedAccepted; decide

theorem witness_OddFieldIsAlignedDown : (withOdd .alignDown start).cfg.oddPairPolicy = .alignDown := rfl

/-- The highest number that names a pair, and the one that does not. -/
theorem witness_OddFieldNamesConsecutivePair :
    (withOdd .consecutive start).cfg.oddPairPolicy = .consecutive ∧ (29#5 ≠ 31#5 ∧ 1#5 ≠ 31#5 ∧ 30#5 ≠ 31#5) ∧
    (31#5 = 31#5 ∨ 30#5 = 31#5 ∨ 29#5 = 31#5) := by decide

theorem witness_EveryInstructionIsOneWord :
    encode Config.default (.ord 4 6 2) = some [0x84#8, 0x11#8, 0x00#8, 0x26#8] ∧
    decodeBytes Config.default [0x84#8, 0x11#8, 0x00#8, 0x26#8, 0x99#8] = (.instr (.ord 4 6 2), [0x99#8]) ∧
    [0x84#8, 0x11#8, 0x00#8].length < 4 ∧
    (Running (placed 0x84110026#32) ∧ (placed 0x84110026#32).fetch = some 0x84110026#32 ∧
      (placed 0x84110026#32).cfg = Config.default ∧
      decodeWord Config.default 0x84110026#32 = .instr (.ord 4 6 2)) := by unfold Running; decide

theorem witness_EncodedWordsHaveFormatF4 :
    encodeWord Config.default (.xnordcc 30 0 30) = some 0xBCBF8020#32 ∧
    encodeWord Config.default (.ord 30 0 30) = some 0xBC178020#32 := by decide

theorem witness_DecodedOperandsAreTheFieldBits :
    decodeWord Config.default 0xBC17803E#32 = .instr (.ord 30 30 30) := by decide

theorem witness_AcceptedWordsHaveTheFixedBits :
    Config.default.unusedBitsPolicy = .refuse ∧ decodeWord Config.default 0x80B80020#32 = .instr (.xnordcc 0 0 0) := by
  decide

theorem witness_ImmediateFormsAreOutOfScope :
    (0x80102020#32).getLsbD 13 = true ∧ encodeWord Config.default (.ord 30 30 30) = some 0xBC17803E#32 := by decide

theorem witness_BaseWordsAreOutOfScope :
    (0xC4110026#32).toNat / 2 ^ 30 ≠ 2 ∧ (0x84110006#32).getLsbD 5 = false := by decide

theorem witness_UnassignedOp3ValuesAreRefused :
    Config.default.xnordccOp3 = some 0x17#6 ∧ 0x81F80020#32 &&& 0xC1F82020#32 ∉ matchWords ∧
    ({ Config.default with xnordccOp3 := none } : Config).xnordccOp3 = none ∧
    0x84B91FE6#32 &&& 0xC1F82020#32 = 0x80B80020#32 := by decide

theorem witness_StrayUnusedBitsByPolicy :
    ({ Config.default with unusedBitsPolicy := .ignore } : Config).unusedBitsPolicy = .ignore ∧
    Config.default.unusedBitsPolicy = .refuse ∧ 0x84111026#32 &&& 0x00001FC0#32 ≠ 0#32 ∧
    decodeWord Config.default (0x84111026#32 &&& 0xFFFFE03F#32) ≠ .outOfScopeWord := by decide

/-- Under the defaults, and with an odd register under `consecutive`. -/
theorem witness_DecodeOfEncodeIsTheInstruction :
    Config.default.op3Distinct = true ∧ Instr.wf Config.default (.xnordcc 30 0 30) = true ∧
    Config.op3Distinct { Config.default with oddPairPolicy := .consecutive } = true ∧
    Instr.wf { Config.default with oddPairPolicy := .consecutive } (.andd 29 1 0) = true := by decide

theorem witness_EncodeOfDecodeIsTheWord :
    Config.default.unusedBitsPolicy = .refuse ∧ decodeWord Config.default 0x84A90026#32 = .instr (.anddncc 4 6 2) := by
  decide

theorem witness_StepRunsTheDecodedInstruction :
    Running (placed 0x84110026#32) ∧ (placed 0x84110026#32).fetch = some 0x84110026#32 ∧
    decodeWord (placed 0x84110026#32).cfg 0x84110026#32 = .instr (.ord 4 6 2) := by
  unfold Running; decide

/-- The four bytes of the last word of the address space, and a text that lacks the last of them. -/
theorem witness_FetchIsBigEndian :
    let m := memWrite [] 0xFFFFFFFC#32 [0x84#8, 0x11#8, 0x00#8, 0x26#8]
    (0xFFFFFFFC#32).toNat % 4 = 0 ∧ Memory.read m 0xFFFFFFFC = some 0x84#8 ∧ Memory.read m 0xFFFFFFFD = some 0x11#8 ∧
    Memory.read m 0xFFFFFFFE = some 0x00#8 ∧ Memory.read m 0xFFFFFFFF = some 0x26#8 ∧
    Memory.read (memWrite [] 0xFFFFFFFC#32 [0x84#8, 0x11#8, 0x00#8]) (0xFFFFFFFC + 3) = none := by decide

theorem witness_StatesWithoutAStep :
    ({ start with refused := true } : State).refused = true ∧
    (({ start with faulted := true } : State).refused = false ∧ ({ start with faulted := true } : State).faulted = true) ∧
    (({ start with endPc := some 0#32 } : State).refused = false ∧
      ({ start with endPc := some 0#32 } : State).faulted = false ∧
      ({ start with endPc := some 0#32 } : State).endPc = some ({ start with endPc := some 0#32 } : State).pc) ∧
    (Running start ∧ start.fetch = none) := by unfold Running; decide

/-- One word for each clause, in its order, and the state that fetches it. -/
theorem witness_StepOutcomesUnderTheDefaults :
    ([0x80180020#32, 0x84110066#32, 0x86110026#32, 0x84114026#32, 0x84110027#32, 0xBC17803E#32].all (fun w =>
      decide ((placed w).cfg = Config.default) && decide ((placed w).fetch = some w) && !(placed w).refused &&
        !(placed w).faulted && decide ((placed w).endPc ≠ some (placed w).pc))) = true ∧
    0x80180020#32 &&& 0xC1F82020#32 ∉ matchWords ∧
    (0x84110066#32 &&& 0xC1F82020#32 ∈ matchWords ∧ 0x84110066#32 &&& 0x00001FC0#32 ≠ 0#32) ∧
    (0x86110026#32 &&& 0xC1F83FE0#32 ∈ matchWords ∧ 0x86110026#32 &&& 0x02000000#32 ≠ 0#32) ∧
    (0x84114026#32 &&& 0xC1F83FE0#32 ∈ matchWords ∧ 0x84114026#32 &&& 0x02000000#32 = 0#32 ∧
      0x84114026#32 &&& 0x00004000#32 ≠ 0#32) ∧
    (0x84110027#32 &&& 0xC1F83FE0#32 ∈ matchWords ∧ 0x84110027#32 &&& 0x02004000#32 = 0#32 ∧
      0x84110027#32 &&& 0x00000001#32 ≠ 0#32) ∧
    (0xBC17803E#32 &&& 0xC1F83FE0#32 ∈ matchWords ∧ 0xBC17803E#32 &&& 0x02004001#32 = 0#32) := by decide

/-- A word outside the group, and for each later clause a word of it with the state that fetches it. -/
theorem witness_StepOutcomesByPolicy :
    (∀ i, ¬SpellsUpToUnused Config.default 0x00000000#32 i) ∧
    (SpellsUpToUnused Config.default 0x84111FE6#32 (.ord 4 6 2) ∧ ¬UnusedAccepted Config.default 0x84111FE6#32) ∧
    (SpellsUpToUnused Config.default 0xBE17C03F#32 (.ord 31 31 31) ∧ UnusedAccepted Config.default 0xBE17C03F#32) ∧
    (Unpaired Config.default 1 ∧ Unpaired { Config.default with oddPairPolicy := .consecutive } 31 ∧
      ¬Unpaired { Config.default with oddPairPolicy := .consecutive } 29 ∧ ¬Unpaired Config.default 30) ∧
    Config.default.op3Distinct = true ∧
    (Running (placed 0xBE17C03F#32) ∧ (placed 0xBE17C03F#32).fetch = some 0xBE17C03F#32) := by
  refine ⟨fun i => ?_, ?_⟩
  · intro h
    have := Laws.FixedBits.of_encodeWord i Config.default _ h
    exact absurd this (by decide)
  · unfold SpellsUpToUnused UnusedAccepted Unpaired EvenReg Running; decide

/-- A step to a next state, a refusal, and a raise, with the successor of each. -/
theorem witness_StoppedStepsWriteOnlyTheMark :
    (∃ t, step (placed 0x84110026#32) = .next t) ∧ (∃ r, step (placed 0x80180020#32) = .refused r) ∧
    step (withOdd .trapIllegal (placed 0x86114027#32)) = .fault (.illegalInstruction 0x02#8) ∧
    (∃ t, (placed 0x84110026#32).successor = some t) := ⟨⟨_, rfl⟩, ⟨_, rfl⟩, rfl, _, rfl⟩

theorem witness_NoExceptionWithoutTrapPolicy : start.cfg.oddPairPolicy ≠ .trapIllegal := by decide

theorem witness_EveryStepKeepsTheInvariant :
    (placed 0x84110026#32).Inv ∧ ∃ t, step (placed 0x84110026#32) = .next t :=
  ⟨by unfold State.Inv; decide, _, rfl⟩

theorem witness_EveryStepKeepsTextAndParameters : ∃ t, step (placed 0x84910026#32) = .next t := ⟨_, rfl⟩

theorem witness_PlacedWordRunsNext :
    start.Inv ∧ decodeWord start.cfg (BitVec.ofNat 32 0x84A90026) = .instr (.anddncc 4 6 2) := by
  unfold State.Inv; decide

theorem witness_SequentialRunsAdvanceByFour :
    (placed 0x84110026#32).launchSequential = true ∧ ∃ t, Runs 1 (placed 0x84110026#32) t :=
  ⟨by decide, _, rfl⟩

/-- One word at the last word of the address space, where the counters wrap, and `END_PC` after it. -/
theorem witness_StraightLineCodeRunsToItsEnd :
    let s : State := { start with
      pc := 0xFFFFFFFC#32, npc := 0#32, endPc := some 0#32
      text := memWrite [] 0xFFFFFFFC#32 [0x84#8, 0x11#8, 0x00#8, 0x26#8] }
    s.launchNotRefused = true ∧ s.launchSequential = true ∧
    ∀ j, j < 1 → s.endPc ≠ some (s.pc + BitVec.ofNat 32 (4 * j)) ∧
      ∃ w i, textAt s.text (s.pc + BitVec.ofNat 32 (4 * j)) = some w ∧ decodeWord s.cfg w = .instr i := by
  refine ⟨by decide, by decide, fun j hj => ?_⟩
  obtain rfl : j = 0 := by omega
  exact ⟨by decide, 0x84110026#32, .ord 4 6 2, by decide, by decide⟩

end Sys2Proof.Tests
end

/-! Memory (R35): replacing the text of a state commutes with every operation an instruction is made of, so an
instruction neither reads nor writes it. -/

namespace Sys2Proof.Machine

/-- The state with another memory. -/
def State.withText (m : Memory) (s : State) : State := { s with text := m }

section WithText

variable (m : Memory) (s : State) (n : RegNum) (v : Word) (p d : Pair) (res : DWord) (cc : Bool)

@[simp] theorem State.withText_cfg : (s.withText m).cfg = s.cfg := rfl

@[simp] theorem State.pairRead_withText : (s.withText m).pairRead p = s.pairRead p := rfl

@[simp] theorem State.writeReg_withText : (s.withText m).writeReg n v = (s.writeReg n v).withText m := by
  unfold State.writeReg; split <;> rfl

@[simp] theorem State.pairWrite_withText : (s.withText m).pairWrite p res = (s.pairWrite p res).withText m := by
  simp only [State.pairWrite, State.withText_cfg, State.writeReg_withText]; split <;> rfl

@[simp] theorem State.setZ64_withText : (s.withText m).setZ64 res = (s.setZ64 res).withText m := rfl

@[simp] theorem State.setNVC64_withText : (s.withText m).setNVC64 res = (s.setNVC64 res).withText m := by
  unfold State.setNVC64; rw [State.withText_cfg]; split <;> rfl

@[simp] theorem State.advance_withText : (s.withText m).advance = s.advance.withText m := rfl

@[simp] theorem afterOp_withText : afterOp cc d res (s.withText m) = (afterOp cc d res s).withText m := by
  unfold afterOp; cases cc <;> simp

end WithText

/-- An instruction whose three pair fields resolve completes. -/
theorem exec_of_operands {i : Instr} {s : State} {p1 p2 d : Pair}
    (h : operands s.cfg.oddPairPolicy i.rs1 i.rs2 i.rd = .pairs p1 p2 d) :
    exec i s = .next (afterOp i.opcode.setsCc d (opFn s.cfg i.opcode (s.pairRead p1) (s.pairRead p2)) s) :=
  (exec_eq_pairOp i s).trans (pairOp_pairs h)

/-- An instruction that completes leaves the text alone. -/
theorem exec_text {i : Instr} {s t : State} (h : exec i s = .next t) : t.text = s.text := by
  obtain ⟨_, _, _, _, rfl⟩ := exec_next h
  exact afterOp_text ..

/-- With another memory an instruction that completes does the same and carries that memory along. -/
theorem exec_withText {i : Instr} {s t : State} (h : exec i s = .next t) (m : Memory) :
    exec i (s.withText m) = .next (t.withText m) := by
  obtain ⟨p1, p2, d, hops, rfl⟩ := exec_next h
  rw [exec_of_operands (s := s.withText m) hops]
  simp only [afterOp_withText, State.pairRead_withText, State.withText_cfg]

/-- Settles O15: nothing is written because the text is kept, nothing is read because every operation commutes with
replacing the text. -/
theorem noInstructionTouchesMemory : Obligations.NoInstructionTouchesMemory :=
  fun _ _ _ h => ⟨fun _ => by rw [exec_text h], exec_withText h⟩

end Sys2Proof.Machine

/-! Encoding (R43 to R46): the fields of a word as numbers, the masks that leave op3 out or keep it alone, and the
decoder on bytes. -/

namespace Sys2Proof

section FieldNumbers

variable (w : Word)

/-- A field as an unsigned number (R7). -/
theorem field_toNat (lo width : Nat) : (field w lo width).toNat = w.toNat / 2 ^ lo % 2 ^ width := by
  rw [field, BitVec.extractLsb'_toNat, Nat.shiftRight_eq_div_pow]

/-- The field op reaches the top of the word, so nothing is cut off above it. -/
theorem opField_toNat : (opField w).toNat = w.toNat / 2 ^ 30 := by
  have hw : w.toNat < 2 ^ 32 := w.isLt
  rw [opField, field_toNat, Nat.mod_eq_of_lt (by omega)]

theorem rdField_toNat : (rdField w).toNat = w.toNat / 2 ^ 25 % 32 := field_toNat ..
theorem rs1Field_toNat : (rs1Field w).toNat = w.toNat / 2 ^ 14 % 32 := field_toNat ..
theorem iField_toNat : (iField w).toNat = w.toNat / 2 ^ 13 % 2 := field_toNat ..
theorem unusedField_toNat : (unusedField w).toNat = w.toNat / 2 ^ 6 % 128 := field_toNat ..
theorem ajitField_toNat : (ajitField w).toNat = w.toNat / 2 ^ 5 % 2 := field_toNat ..

/-- The field rs2 starts at bit 0. -/
theorem rs2Field_toNat : (rs2Field w).toNat = w.toNat % 32 := by
  simp [rs2Field, field_toNat]

/-- The field op3 as a bit vector: bits 24..19, cut to six. -/
theorem op3Field_eq_ofNat : op3Field w = BitVec.ofNat 6 (w.toNat / 2 ^ 19) :=
  BitVec.eq_of_toNat_eq (by rw [op3Field, field_toNat, BitVec.toNat_ofNat])

/-- The mask of every bit but op3 keeps the other seven fields (R44). -/
theorem and_outsideOp3Mask : w &&& 0xFE07FFFF#32 =
    wordOfFields (opField w) (rdField w) 0#6 (rs1Field w) (iField w) (unusedField w) (ajitField w) (rs2Field w) := by
  unfold wordOfFields opField rdField rs1Field iField unusedField ajitField rs2Field field
  apply BitVec.eq_of_getLsbD_eq
  intro k hk
  simp only [BitVec.getLsbD_append, BitVec.getLsbD_and, BitVec.getLsbD_extractLsb']
  interval_cases k <;> simp

end FieldNumbers

/-- Two words that agree under a mask differ nowhere in it. -/
theorem xor_and_eq_zero {a b m : Word} (h : a &&& m = b &&& m) : (a ^^^ b) &&& m = 0#32 := by
  have hdistrib : (a ^^^ b) &&& m = (a &&& m) ^^^ (b &&& m) := by
    ext k
    simp only [BitVec.getElem_and, BitVec.getElem_xor, Bool.and_xor_distrib_right]
  rw [hdistrib, h, BitVec.xor_self]

/-- The word with the fixed bits of R46, a given op3 and every register field 0. -/
theorem wordOfFields_matchWord (y : Op3) :
    wordOfFields 2#2 0#5 y 0#5 0#1 0#7 1#1 0#5 = 0x80000020#32 ||| (y.setWidth 32 <<< 19) := by
  unfold wordOfFields
  apply BitVec.eq_of_getLsbD_eq
  intro k hk
  simp only [BitVec.getLsbD_append, BitVec.getLsbD_or, BitVec.getLsbD_shiftLeft, BitVec.getLsbD_setWidth]
  interval_cases k <;> simp

/-- The word of an instruction in the format of R44: its own op3 and registers, the other fields fixed. -/
theorem encodeWord_eq_some {c : Config} {i : Instr} {w : Word} : encodeWord c i = some w ↔
    ∃ y, i.opcode.op3 c = some y ∧ wordOfFields 2#2 i.rd y i.rs1 0#1 0#7 1#1 i.rs2 = w := by
  simp only [encodeWord, Option.map_eq_some_iff, encodeFields_eq]

/-- The bytes decoded to an instruction are a word that decodes to it, and then what is left. -/
theorem decodeBytes_instr {c : Config} {bs rest : List Byte} {i : Instr} (h : decodeBytes c bs = (.instr i, rest)) :
    ∃ b0 b1 b2 b3, bs = b0 :: b1 :: b2 :: b3 :: rest ∧ decodeWord c (wordOfBytes b0 b1 b2 b3) = .instr i := by
  unfold decodeBytes at h
  split at h
  case h_1 b0 b1 b2 b3 tail =>
    obtain ⟨hd, rfl⟩ := Prod.mk.inj h
    exact ⟨b0, b1, b2, b3, rfl, hd⟩
  case h_2 => exact nomatch (Prod.mk.inj h).1

/-- Fewer than four bytes hold no word (R43). -/
theorem decodeBytes_of_length_lt {c : Config} {bs : List Byte} (h : bs.length < 4) :
    decodeBytes c bs = (.truncated, bs) := by
  unfold decodeBytes
  split
  case h_1 => simp only [List.length_cons] at h; omega
  case h_2 => rfl

/-- Settles O28: the fields of the encoder's word are those it was given, and with the same registers two words have
the same fields outside op3. -/
theorem encodedWordsHaveFormatF4 : Obligations.EncodedWordsHaveFormatF4 := by
  refine ⟨fun c i w h => ?_, fun c o o' rs1 rs2 rd w w' h h' => ?_⟩
  · obtain ⟨y, hy, rfl⟩ := encodeWord_eq_some.1 h
    rw [← opField_toNat, ← rdField_toNat, ← op3Field_eq_ofNat, ← rs1Field_toNat, ← iField_toNat,
      ← unusedField_toNat, ← ajitField_toNat, ← rs2Field_toNat]
    simp [hy]
  · obtain ⟨y, -, rfl⟩ := encodeWord_eq_some.1 h
    obtain ⟨y', -, rfl⟩ := encodeWord_eq_some.1 h'
    exact xor_and_eq_zero (by simp [and_outsideOp3Mask])

/-- Settles O30: what the decoder asks of op, i, the AJIT bit and the unused bits fixes both masked words. -/
theorem acceptedWordsHaveTheFixedBits : Obligations.AcceptedWordsHaveTheFixedBits := by
  intro c w i hp h
  obtain ⟨hop, hi, haj, hlook, hun, -⟩ := (decodeWord_instr c w i).1 h
  replace hun : unusedField w = 0#7 := hun.resolve_right (by simp [hp])
  refine ⟨?_, ?_, ?_, ?_, ?_, op3Field w, op3_of_lookup hlook, ?_⟩
  · rw [← opField_toNat, hop]; rfl
  · rw [← iField_toNat, hi]; rfl
  · rw [← ajitField_toNat, haj]; rfl
  · rw [← unusedField_toNat, hun]; rfl
  · rw [and_fixedMask, hop, hi, hun, haj]; rfl
  · rw [and_matchMask, hop, hi, hun, haj, wordOfFields_matchWord]

end Sys2Proof

namespace Sys2Proof.Machine

/-- A running state that fetches a word which decodes to an instruction runs it (R10). -/
theorem step_of_decodeWord {s : State} {w : Word} {i : Instr} (hs : Claims.Running s) (hw : s.fetch = some w)
    (hd : decodeWord s.cfg w = .instr i) : step s = exec i s := by
  obtain ⟨hr, hf, he⟩ := hs
  simp [step, hr, hf, he, hw, hd, dispatchDecoded]

/-- Settles O27: the bytes decoded are one word and what is left, and a running state runs what its word decodes to. -/
theorem everyInstructionIsOneWord : Obligations.EveryInstructionIsOneWord := by
  refine fun c => ⟨fun i bs h => ?_, fun bs rest i h => ?_, fun bs h => by rw [decodeBytes_of_length_lt h], ?_⟩
  · obtain ⟨w, -, rfl⟩ := Option.map_eq_some_iff.1 h
    rfl
  · obtain ⟨b0, b1, b2, b3, rfl, hd⟩ := decodeBytes_instr h
    exact ⟨by simp only [List.length_cons]; omega, fun after => congrArg (·, after) hd⟩
  · rintro s s' w i rfl hc hs hs' hw hw' hd
    exact ⟨step_of_decodeWord hs hw hd, step_of_decodeWord hs' hw' (hc ▸ hd)⟩

end Sys2Proof.Machine

/-! Parity and pairs: when a register number names a pair, and what the three fields of an instruction come to (R16,
R19, R75). -/

namespace Sys2Proof.Machine

open Sys2Proof.Claims

/-- A register number is even exactly when its bit 0 is clear. -/
theorem evenReg_iff {n : RegNum} : EvenReg n ↔ isOdd n = false := by
  unfold EvenReg; revert n; decide

theorem not_evenReg_iff {n : RegNum} : ¬EvenReg n ↔ isOdd n = true := by
  simp [evenReg_iff]

/-- A number is refused under the policy exactly where the statements call it unpaired. -/
theorem pairForm_eq_refuse {c : Config} {n : RegNum} : pairForm c.oddPairPolicy n = .refuse ↔ Unpaired c n := by
  have odd31 : isOdd 31#5 = true := rfl
  unfold Unpaired
  rw [not_evenReg_iff]
  cases hp : c.oddPairPolicy <;> cases ho : isOdd n <;> simp [pairForm, ho]
  rintro rfl
  simp [odd31] at ho

/-- A number traps exactly when it is odd under `trap_illegal`. -/
theorem pairForm_eq_trap {policy : OddPairPolicy} {n : RegNum} :
    pairForm policy n = .trap ↔ policy = .trapIllegal ∧ isOdd n = true := by
  cases policy <;> cases ho : isOdd n <;> simp [pairForm, ho]
  split <;> exact nofun

/-- A number that is neither refused nor trapped names a pair. -/
theorem pairForm_exists_pair {policy : OddPairPolicy} {n : RegNum} (hr : pairForm policy n ≠ .refuse)
    (ht : pairForm policy n ≠ .trap) : ∃ p, pairForm policy n = .pair p := by
  cases h : pairForm policy n with
  | pair p => exact ⟨p, rfl⟩
  | refuse => exact absurd h hr
  | trap => exact absurd h ht

/-- Under `refuse` only an even number names a pair, and it is its own. -/
theorem pairForm_refuse_pair {n : RegNum} {p : Pair} (h : pairForm .refuse n = .pair p) : isOdd n = false := by
  cases ho : isOdd n
  · rfl
  · simp [pairForm, ho] at h

section Operands

variable {policy : OddPairPolicy} {a b d : RegNum} {pa pd : Pair}

theorem operands_refuse_rd (hd : pairForm policy d = .refuse) : operands policy a b d = .refuse .rd := by
  simp [operands, hd]

theorem operands_refuse_rs1 (hd : pairForm policy d = .pair pd) (ha : pairForm policy a = .refuse) :
    operands policy a b d = .refuse .rs1 := by
  simp [operands, hd, ha]

theorem operands_refuse_rs2 (hd : pairForm policy d = .pair pd) (ha : pairForm policy a = .pair pa)
    (hb : pairForm policy b = .refuse) : operands policy a b d = .refuse .rs2 := by
  simp [operands, hd, ha, hb]

/-- A trap among the fields comes of `trap_illegal` and an odd number. -/
theorem operands_eq_trap : operands policy a b d = .trap ↔
    policy = .trapIllegal ∧ (isOdd a = true ∨ isOdd b = true ∨ isOdd d = true) := by
  by_cases hp : policy = .trapIllegal
  · subst hp
    cases ha : isOdd a <;> cases hb : isOdd b <;> cases hd : isOdd d <;> simp [operands, pairForm, ha, hb, hd]
  · have no_trap : ∀ n, pairForm policy n = .refuse ∨ ∃ p, pairForm policy n = .pair p := fun n => by
      cases h : pairForm policy n with
      | trap => exact absurd (pairForm_eq_trap.1 h).1 hp
      | _ => simp
    obtain hd | ⟨_, hd⟩ := no_trap d <;> obtain ha | ⟨_, ha⟩ := no_trap a <;> obtain hb | ⟨_, hb⟩ := no_trap b <;>
      simp [operands, hp, hd, ha, hb]

end Operands

end Sys2Proof.Machine

/-! Which word spells which instruction, and what the decoder answers for it, one lemma per answer (R49 to R54, R75). -/

namespace Sys2Proof

open Claims

/-- Two words built from fields are equal exactly when the fields are. -/
theorem wordOfFields_inj {op op' : BitVec 2} {rd rd' rs1 rs1' rs2 rs2' : RegNum} {y y' : Op3} {i i' aj aj' : BitVec 1}
    {un un' : BitVec 7} : wordOfFields op rd y rs1 i un aj rs2 = wordOfFields op' rd' y' rs1' i' un' aj' rs2' ↔
      op = op' ∧ rd = rd' ∧ y = y' ∧ rs1 = rs1' ∧ i = i' ∧ un = un' ∧ aj = aj' ∧ rs2 = rs2' := by
  constructor
  · intro h
    exact ⟨by simpa using congrArg opField h, by simpa using congrArg rdField h, by simpa using congrArg op3Field h,
      by simpa using congrArg rs1Field h, by simpa using congrArg iField h, by simpa using congrArg unusedField h,
      by simpa using congrArg ajitField h, by simpa using congrArg rs2Field h⟩
  · rintro ⟨rfl, rfl, rfl, rfl, rfl, rfl, rfl, rfl⟩; rfl

/-- A word spells an instruction when its fixed fields are right, its op3 is the operation's and its registers are the
operands. -/
theorem spellsUpToUnused_iff {c : Config} {w : Word} {i : Instr} : SpellsUpToUnused c w i ↔
    opField w = 2#2 ∧ iField w = 0#1 ∧ ajitField w = 1#1 ∧ i.opcode.op3 c = some (op3Field w) ∧
      i.rs1 = rs1Field w ∧ i.rs2 = rs2Field w ∧ i.rd = rdField w := by
  simp only [SpellsUpToUnused, encodeWord_eq_some, and_clearUnused, wordOfFields_inj]
  constructor
  · rintro ⟨y, hy, hop, hrd, rfl, hrs1, hi, -, haj, hrs2⟩
    exact ⟨hop.symm, hi.symm, haj.symm, hy, hrs1, hrs2, hrd⟩
  · rintro ⟨hop, hi, haj, hy, hrs1, hrs2, hrd⟩
    exact ⟨_, hy, hop.symm, hrd, rfl, hrs1, hi.symm, trivial, haj.symm, hrs2⟩

/-- The mask of the unused bits picks out their field. -/
theorem and_unusedMask_eq_zero {w : Word} : w &&& 0x00001FC0#32 = 0#32 ↔ unusedField w = 0#7 := by
  rw [and_unusedMask, show (0#32 : Word) = wordOfFields 0#2 0#5 0#6 0#5 0#1 0#7 0#1 0#5 by decide, wordOfFields_inj]
  simp

theorem unusedAccepted_iff {c : Config} {w : Word} :
    UnusedAccepted c w ↔ unusedField w = 0#7 ∨ c.unusedBitsPolicy = .ignore := by
  rw [UnusedAccepted, and_unusedMask_eq_zero, or_comm]

theorem not_unusedAccepted_iff {c : Config} {w : Word} :
    ¬UnusedAccepted c w ↔ unusedField w ≠ 0#7 ∧ c.unusedBitsPolicy = .refuse := by
  rw [unusedAccepted_iff]
  cases c.unusedBitsPolicy <;> simp

/-- The op3 of an operation selects some operation: its own, or the row that comes before it (log entry 11). -/
theorem lookupOp3_isSome {c : Config} {y : Op3} {o : Opcode} (h : o.op3 c = some y) :
    ∃ o', lookupOp3 c y = some o' := by
  have in_order : o ∈ opcodeOrder := by cases o <;> decide
  exact Option.isSome_iff_exists.1 (List.find?_isSome.2 ⟨o, in_order, by simp [h]⟩)

/-- The decoder puts a word out of scope exactly when it is the word of no instruction. -/
theorem decodeWord_outOfScope {c : Config} {w : Word} :
    decodeWord c w = .outOfScopeWord ↔ ∀ i, ¬SpellsUpToUnused c w i := by
  simp only [spellsUpToUnused_iff]
  constructor
  · rintro h i ⟨hop, hi, haj, hy, -⟩
    obtain ⟨o, ho⟩ := lookupOp3_isSome hy
    simp only [decodeWord, hop, hi, haj, ho, ne_eq, not_true_eq_false, if_false] at h
    split at h
    · exact nomatch h
    · split at h <;> exact nomatch h
  · intro h
    by_cases hop : opField w = 2#2 <;> by_cases hi : iField w = 0#1 <;> by_cases haj : ajitField w = 1#1 <;>
      simp only [decodeWord, hop, hi, haj, ne_eq, not_true_eq_false, not_false_eq_true, if_true, if_false]
    cases ho : lookupOp3 c (op3Field w) with
    | none => rfl
    | some o =>
      refine absurd ⟨hop, hi, haj, ?_⟩ (h (o.instr (rs1Field w) (rs2Field w) (rdField w)))
      simp [op3_of_lookup ho]

section Spelled

variable {c : Config} {w : Word} {i : Instr} (h : SpellsUpToUnused c w i)

include h

/-- A word of the group with stray unused bits is refused for them. -/
theorem decodeWord_unusedBits (hu : ¬UnusedAccepted c w) : decodeWord c w = .unusedBitsNonZero := by
  obtain ⟨hop, hi, haj, hy, -⟩ := spellsUpToUnused_iff.1 h
  obtain ⟨o, ho⟩ := lookupOp3_isSome hy
  simp [decodeWord, hop, hi, haj, ho, not_unusedAccepted_iff.1 hu]

/-- With its unused bits accepted, a word of the group is refused for the field its operands are refused for. -/
theorem decodeWord_oddPair (hu : UnusedAccepted c w) {f : Machine.PairField}
    (hf : Machine.operands c.oddPairPolicy i.rs1 i.rs2 i.rd = .refuse f) : decodeWord c w = .oddPairRegister f := by
  obtain ⟨hop, hi, haj, hy, hrs1, hrs2, hrd⟩ := spellsUpToUnused_iff.1 h
  obtain ⟨o, ho⟩ := lookupOp3_isSome hy
  rw [hrs1, hrs2, hrd] at hf
  have hun : ¬(unusedField w ≠ 0#7 ∧ c.unusedBitsPolicy = .refuse) := fun k => not_unusedAccepted_iff.2 k hu
  simp only [decodeWord, hop, hi, haj, ho, hf, if_neg hun, ne_eq, not_true_eq_false, if_false]

/-- With its unused bits accepted, a word of the group is illegal where its operands trap. -/
theorem decodeWord_illegal (hu : UnusedAccepted c w)
    (hf : Machine.operands c.oddPairPolicy i.rs1 i.rs2 i.rd = .trap) : decodeWord c w = .illegalInstruction := by
  obtain ⟨hop, hi, haj, hy, hrs1, hrs2, hrd⟩ := spellsUpToUnused_iff.1 h
  obtain ⟨o, ho⟩ := lookupOp3_isSome hy
  rw [hrs1, hrs2, hrd] at hf
  have hun : ¬(unusedField w ≠ 0#7 ∧ c.unusedBitsPolicy = .refuse) := fun k => not_unusedAccepted_iff.2 k hu
  simp only [decodeWord, hop, hi, haj, ho, hf, if_neg hun, ne_eq, not_true_eq_false, if_false]

/-- With its unused bits accepted and its operands resolved, a word decodes to the instruction it spells, where no word
spells two. -/
theorem decodeWord_of_spells (hu : UnusedAccepted c w) (hc : c.op3Distinct = true) {p1 p2 d : Machine.Pair}
    (hf : Machine.operands c.oddPairPolicy i.rs1 i.rs2 i.rd = .pairs p1 p2 d) : decodeWord c w = .instr i := by
  obtain ⟨hop, hi, haj, hy, hrs1, hrs2, hrd⟩ := spellsUpToUnused_iff.1 h
  rw [hrs1, hrs2, hrd] at hf
  exact (decodeWord_instr c w i).2 ⟨hop, hi, haj, lookup_of_op3 hc hy, unusedAccepted_iff.1 hu, ⟨p1, p2, d, hf⟩, hrs1,
    hrs2, hrd⟩

end Spelled

/-- What a word that decodes to an instruction is: a spelling of it, with its unused bits accepted and its operands
resolved. -/
theorem spells_of_decodeWord {c : Config} {w : Word} {i : Instr} (h : decodeWord c w = .instr i) :
    SpellsUpToUnused c w i ∧ UnusedAccepted c w ∧
      ∃ p1 p2 d, Machine.operands c.oddPairPolicy i.rs1 i.rs2 i.rd = .pairs p1 p2 d := by
  obtain ⟨hop, hi, haj, ho, hu, hf, hrs1, hrs2, hrd⟩ := (decodeWord_instr c w i).1 h
  exact ⟨spellsUpToUnused_iff.2 ⟨hop, hi, haj, op3_of_lookup ho, hrs1, hrs2, hrd⟩, unusedAccepted_iff.2 hu,
    by rw [hrs1, hrs2, hrd]; exact hf⟩

/-- An operation exists exactly when it has an op3. -/
theorem opcode_exists_iff {c : Config} {o : Opcode} : o.exists c = true ↔ ∃ y, o.op3 c = some y := by
  cases o <;> simp [Opcode.exists, Opcode.op3, Option.isSome_iff_exists]

/-- An instruction is well-formed when its operation has an op3 and its fields name pairs. -/
theorem instr_wf_iff {c : Config} {i : Instr} : i.wf c = true ↔ (∃ y, i.opcode.op3 c = some y) ∧
    ∃ p1 p2 d, Machine.operands c.oddPairPolicy i.rs1 i.rs2 i.rd = .pairs p1 p2 d := by
  rw [Instr.wf, Bool.and_eq_true, opcode_exists_iff]
  cases Machine.operands c.oddPairPolicy i.rs1 i.rs2 i.rd <;> simp

/-- Every word the encoder builds spells its instruction, and its unused bits are zero. -/
theorem spells_of_encodeWord {c : Config} {i : Instr} {w : Word} (h : encodeWord c i = some w) :
    SpellsUpToUnused c w i ∧ unusedField w = 0#7 := by
  obtain ⟨y, hy, rfl⟩ := encodeWord_eq_some.1 h
  simp [spellsUpToUnused_iff, hy]

/-- A word that spells an instruction and has its unused bits zero is the encoder's. -/
theorem encodeWord_of_spells {c : Config} {i : Instr} {w : Word} (h : SpellsUpToUnused c w i)
    (hu : unusedField w = 0#7) : encodeWord c i = some w := by
  rw [h, and_clearUnused, ← hu, ← word_eq_fields]

/-- Settles O36: the encoder's word spells the instruction with no stray bit, and the decoder reads a spelled word
back. -/
theorem decodeOfEncodeIsTheInstruction : Obligations.DecodeOfEncodeIsTheInstruction := by
  intro c i hc hwf
  obtain ⟨⟨y, hy⟩, p1, p2, d, hf⟩ := instr_wf_iff.1 hwf
  have hw := encodeWord_eq_some.2 ⟨y, hy, rfl⟩
  obtain ⟨hspell, hun⟩ := spells_of_encodeWord hw
  exact ⟨_, hw, decodeWord_of_spells hspell (unusedAccepted_iff.2 (.inl hun)) hc hf⟩

/-- Settles O37: an accepted word spells its instruction, and under `refuse` it has no stray bit to lose. -/
theorem encodeOfDecodeIsTheWord : Obligations.EncodeOfDecodeIsTheWord := by
  intro c w i hp h
  obtain ⟨hspell, hu, hf⟩ := spells_of_decodeWord h
  have hun : unusedField w = 0#7 := (unusedAccepted_iff.1 hu).resolve_right (by simp [hp])
  obtain ⟨-, -, -, hy, -⟩ := spellsUpToUnused_iff.1 hspell
  exact ⟨encodeWord_of_spells hspell hun, instr_wf_iff.2 ⟨⟨_, hy⟩, hf⟩⟩

end Sys2Proof

/-! The step (R10): what it answers for each answer of the decoder, and what every step keeps (R28, R34, R41, R72,
R73); and the state after reset (R30). -/

namespace Sys2Proof.Machine

open Sys2Proof.Claims

/-- An address is aligned when it is a multiple of 4 (R34). -/
theorem isAligned_iff {a : Word} : isAligned a = true ↔ a.toNat % 4 = 0 := by
  rw [isAligned, beq_iff_eq, ← BitVec.toNat_inj, BitVec.extractLsb'_toNat]
  rfl

/-- The next word address is aligned if this one is. -/
theorem isAligned_add_four {a : Word} (h : isAligned a = true) : isAligned (a + 4#32) = true := by
  rw [isAligned_iff] at h ⊢
  rw [BitVec.toNat_add, BitVec.toNat_ofNat]
  omega

/-- A completed instruction advances the counters (R21). -/
theorem exec_advanced {i : Instr} {s t : State} (h : exec i s = .next t) : Advanced s t := by
  obtain ⟨_, _, _, _, rfl⟩ := exec_next h
  exact ⟨afterOp_pc .., afterOp_npc ..⟩

/-- A completed instruction keeps the text, the parameters, `END_PC` and the marks (R29). -/
theorem exec_restKept {i : Instr} {s t : State} (h : exec i s = .next t) : RestKept s t := by
  obtain ⟨_, _, _, _, rfl⟩ := exec_next h
  exact ⟨fun a => by rw [afterOp_text], afterOp_cfg .., afterOp_endPc .., afterOp_refused .., afterOp_faulted ..⟩

/-- A running state steps as the decoder says of the word it fetches. -/
theorem step_of_fetch {s : State} {w : Word} (hs : Running s) (hw : s.fetch = some w) :
    step s = dispatchDecoded exec w s (decodeWord s.cfg w) := by
  obtain ⟨hr, hf, he⟩ := hs
  simp [step, hr, hf, he, hw]

theorem exec_of_refuse {i : Instr} {s : State} {f : PairField}
    (h : operands s.cfg.oddPairPolicy i.rs1 i.rs2 i.rd = .refuse f) :
    exec i s = .refused (.oddPairRegister f s.pc none) := by
  simp [exec_eq_pairOp, pairOp, h]

theorem exec_of_trap {i : Instr} {s : State} (h : operands s.cfg.oddPairPolicy i.rs1 i.rs2 i.rd = .trap) :
    exec i s = raiseIllegal := by
  simp [exec_eq_pairOp, pairOp, h]

/-- A word that decodes to an instruction completes: its operands are resolved. -/
theorem exec_of_decodeWord {s : State} {w : Word} {i : Instr} (h : decodeWord s.cfg w = .instr i) :
    ∃ t, exec i s = .next t := by
  obtain ⟨-, -, p1, p2, d, hf⟩ := spells_of_decodeWord h
  exact ⟨_, exec_of_operands hf⟩

/-- The decoder answers a raise only under `trap_illegal`. -/
theorem decodeWord_illegal_policy {c : Config} {w : Word} (h : decodeWord c w = .illegalInstruction) :
    c.oddPairPolicy = .trapIllegal := by
  rw [word_eq_fields w, decodeWord_fields] at h
  split at h
  · exact nomatch h
  · split at h
    · exact nomatch h
    · split at h
      · exact nomatch h
      · split at h
        · exact nomatch h
        · exact (operands_eq_trap.1 ‹_›).1
        · exact nomatch h

/-- The only exception a step raises is illegal_instruction with trap type 2, under `trap_illegal` (R70, R73). -/
theorem step_illegal {s : State} {tt : BitVec 8} (h : step s = .fault (.illegalInstruction tt)) :
    tt = 0x02#8 ∧ s.cfg.oddPairPolicy = .trapIllegal := by
  unfold step at h
  split at h
  · exact nomatch h
  split at h
  · exact nomatch h
  split at h
  · exact nomatch h
  split at h
  · exact nomatch h
  next w _ =>
  cases hd : decodeWord s.cfg w with
  | instr i =>
    obtain ⟨t, ht⟩ := exec_of_decodeWord hd
    rw [hd, dispatchDecoded, ht] at h
    exact nomatch h
  | illegalInstruction =>
    rw [hd] at h
    cases h
    exact ⟨rfl, decodeWord_illegal_policy hd⟩
  | _ => rw [hd] at h; exact nomatch h

/-- Settles O45: the text is kept, `pc` takes the aligned `npc`, and `npc + 4` is aligned again. -/
theorem everyStepKeepsTheInvariant : Obligations.EveryStepKeepsTheInvariant := by
  rintro s t ⟨hwf, -, hnpc⟩ h
  obtain ⟨-, -, -, w, i, -, -, he⟩ := step_next h
  obtain ⟨hpc', hnpc'⟩ := exec_advanced he
  exact ⟨exec_text he ▸ hwf, hpc' ▸ hnpc, hnpc' ▸ isAligned_add_four hnpc⟩

/-- Settles O46. -/
theorem resetMeetsTheInvariant : Obligations.ResetMeetsTheInvariant := ⟨rfl, rfl, rfl⟩

/-- Settles O48. -/
theorem resetHasTheSpecsValues : Obligations.ResetHasTheSpecsValues := ⟨rfl, rfl, rfl, rfl⟩

/-- Settles O49. -/
theorem resetHasTheModelsValues : Obligations.ResetHasTheModelsValues := by
  refine ⟨fun n => ?_, rfl, rfl, rfl, rfl, rfl, rfl⟩
  unfold State.readReg State.reset
  split
  · rfl
  · exact Vector.getElem_replicate _

/-- Settles O47: a step to a next state came from an unmarked state and ran an instruction, which keeps the rest. -/
theorem everyStepKeepsTextAndParameters : Obligations.EveryStepKeepsTextAndParameters := by
  intro s t h
  obtain ⟨hr, hf, -, w, i, -, -, he⟩ := step_next h
  obtain ⟨-, hcfg, hend, hr', hf'⟩ := exec_restKept he
  exact ⟨exec_text he, hcfg, hend, hr'.trans hr, hf'.trans hf⟩

/-- Settles O39. -/
theorem stepRunsTheDecodedInstruction : Obligations.StepRunsTheDecodedInstruction :=
  fun _ _ _ => step_of_decodeWord

/-- The successor is the state the step's outcome leaves (R28). -/
theorem successor_of_step {s : State} {r : Host.Outcome State Fault Refusal} (h : step s = r) :
    s.successor = stateAfter s r := by
  rw [State.successor, h]

/-- Settles O41: the three guards of a step and the missing word, each with its own fault. -/
theorem statesWithoutAStep : Obligations.StatesWithoutAStep := by
  refine fun s => ⟨fun hr => ?_, fun hr hf => ?_, fun hr hf he => ?_, ?_⟩
  · have hstep : step s = .fault .markedRefused := by simp [step, hr]
    exact ⟨hstep, successor_of_step hstep, by simp [State.isFinal, State.launchNotRefused, hr]⟩
  · have hstep : step s = .fault .markedFaulted := by simp [step, hr, hf]
    exact ⟨hstep, successor_of_step hstep, by simp [State.isFinal, State.launchNotRefused, hf]⟩
  · have hstep : step s = .fault .runIsFinal := by simp [step, hr, hf, he]
    exact ⟨hstep, successor_of_step hstep, by simp [State.isFinal, State.launchNotRefused, hr, hf, he]⟩
  · rintro ⟨hr, hf, he⟩ hw
    have hstep : step s = .fault .stuckOutsideText := by simp [step, hr, hf, he, hw]
    exact ⟨hstep, successor_of_step hstep, by simp [State.isFinal, he]⟩

/-- Settles O43: the successor is what the step's outcome leaves, one case per outcome. -/
theorem stoppedStepsWriteOnlyTheMark : Obligations.StoppedStepsWriteOnlyTheMark := by
  refine fun s => ⟨fun t h => successor_of_step h, fun r h => successor_of_step h,
    fun tt h => ⟨(step_illegal h).1, successor_of_step h⟩, fun t h => ?_⟩
  cases hs : step s with
  | next u =>
    rw [successor_of_step hs] at h
    exact .inl (congrArg _ (Option.some.inj h))
  | refused r =>
    rw [successor_of_step hs] at h
    exact .inr (.inl ⟨r, rfl, (Option.some.inj h).symm⟩)
  | fault r =>
    rw [successor_of_step hs] at h
    cases r with
    | illegalInstruction tt =>
      obtain ⟨rfl, -⟩ := step_illegal hs
      exact .inr (.inr ⟨rfl, (Option.some.inj h).symm⟩)
    | _ => exact nomatch h

/-- Settles O44. -/
theorem noExceptionWithoutTrapPolicy : Obligations.NoExceptionWithoutTrapPolicy :=
  fun _ _ hp h => hp (step_illegal h).2

end Sys2Proof.Machine

/-! The eleven instructions (R59 to R69): the pair values and halves of the statements are the model's pair reads and
halves, so one lemma says what every operation leaves where its three numbers name their own pairs. -/

namespace Sys2Proof.Machine

open Sys2Proof.Claims

/-- The two ways of saying which register of the pair `n`, `n + 1` is the high half agree (R17, R19). -/
theorem firstIsHigh_pairAt {c : Config} {n : RegNum} :
    firstIsHigh c.pairHighWord (pairAt n) = true ↔ FirstIsHigh c n := by
  have odd_iff : isOdd n = true ↔ n.toNat % 2 = 1 := by revert n; decide
  unfold FirstIsHigh
  cases c.pairHighWord
  · simp [firstIsHigh]
  · simpa [firstIsHigh, pairAt] using odd_iff

theorem pairRead_pairAt (s : State) (n : RegNum) : s.pairRead (pairAt n) = pairValue s n := by
  simp only [State.pairRead, pairValue, firstIsHigh_pairAt]
  rfl

theorem firstHalf_pairAt (c : Config) (n : RegNum) (v : DWord) : firstHalf c (pairAt n) v = halfOfFirst c n v := by
  simp only [firstHalf, half, halfOfFirst, firstIsHigh_pairAt]

theorem secondHalf_pairAt (c : Config) (n : RegNum) (v : DWord) :
    secondHalf c (pairAt n) v = halfOfSecond c n v := by
  simp only [secondHalf, half, halfOfSecond, ← firstIsHigh_pairAt]
  cases firstIsHigh c.pairHighWord (pairAt n) <;> rfl

theorem opFn_eq_resultOf (c : Config) (o : Opcode) (a b : DWord) : opFn c o a b = resultOf c o a b := by
  cases o <;> cases h : c.xnorFormula <;> simp [opFn, resultOf, xnor, xnorBy, h]

section AfterOp

variable (cc : Bool) (d : Pair) (n : RegNum) (res : DWord) (s : State)

theorem afterOp_pairWritten : PairWritten s (afterOp cc (pairAt n) res s) n res := by
  intro r
  rw [afterOp_readReg, State.readReg_pairWrite _ _ _ _ (add_one_ne n), firstHalf_pairAt, secondHalf_pairAt]
  rfl

theorem afterOp_flagsKept : FlagsKept s (afterOp false d res s) := ⟨afterOp_icc_plain .., afterOp_draws_plain ..⟩

theorem afterOp_flagsSetBy : FlagsSetBy s (afterOp true d res s) res := by
  refine ⟨by simp [afterOp_z], ?_⟩
  cases h : s.cfg.iccNvcPolicy <;> simp [afterOp, State.setNVC64, h, BitVec.msb_eq_getLsbD_last]

end AfterOp

/-- The number names the pair `n`, `n + 1`: an even one always, an odd one other than 31 under `consecutive`. -/
def NamesOwnPair (c : Config) (n : RegNum) : Prop := pairForm c.oddPairPolicy n = .pair (pairAt n)

theorem namesOwnPair_of_even {c : Config} {n : RegNum} (h : EvenReg n) : NamesOwnPair c n :=
  pairForm_even (evenReg_iff.1 h)

theorem namesOwnPair_of_consecutive {c : Config} {n : RegNum} (hc : c.oddPairPolicy = .consecutive) (h : n ≠ 31#5) :
    NamesOwnPair c n := by
  cases ho : isOdd n
  · exact pairForm_even ho
  · simp [NamesOwnPair, pairForm, hc, ho, h]

section NamesOwnPair

variable {s : State} {rs1 rs2 rd : RegNum} (h1 : NamesOwnPair s.cfg rs1) (h2 : NamesOwnPair s.cfg rs2)
  (hd : NamesOwnPair s.cfg rd)

include h1 h2 hd

/-- An operation on three numbers that name their own pairs completes. -/
theorem exec_namesOwnPair (o : Opcode) : exec (o.instr rs1 rs2 rd) s =
    .next (afterOp o.setsCc (pairAt rd) (resultOf s.cfg o (pairValue s rs1) (pairValue s rs2)) s) := by
  have hops := operands_pairs.2 ⟨h1, h2, hd⟩
  rw [exec_of_operands (by simpa using hops)]
  simp only [instr_opcode, pairRead_pairAt, opFn_eq_resultOf]

/-- What it leaves: the result in the destination pair, the flags kept or set, the counters advanced, the rest kept. -/
theorem exec_completes (o : Opcode) : ∃ t, exec (o.instr rs1 rs2 rd) s = .next t ∧
    PairWritten s t rd (resultOf s.cfg o (pairValue s rs1) (pairValue s rs2)) ∧
    (o.setsCc = false → FlagsKept s t) ∧
    (o.setsCc = true → FlagsSetBy s t (resultOf s.cfg o (pairValue s rs1) (pairValue s rs2))) ∧
    Advanced s t ∧ RestKept s t := by
  have he := exec_namesOwnPair h1 h2 hd o
  refine ⟨_, he, afterOp_pairWritten _ _ _ s, fun hcc => ?_, fun hcc => ?_, exec_advanced he, exec_restKept he⟩
  · rw [hcc]; exact afterOp_flagsKept ..
  · rw [hcc]; exact afterOp_flagsSetBy ..

end NamesOwnPair

/-- Every operation that is not a CC instruction completes on even numbers. -/
theorem completesPlain (o : Opcode) (ho : o.setsCc = false) : CompletesPlain o.instr (resultOf · o) := by
  intro s rs1 rs2 rd h1 h2 hd
  obtain ⟨t, he, hw, hkept, -, hrest⟩ :=
    exec_completes (namesOwnPair_of_even h1) (namesOwnPair_of_even h2) (namesOwnPair_of_even hd) o
  exact ⟨t, he, hw, hkept ho, hrest⟩

/-- Every CC instruction completes on even numbers. -/
theorem completesCc (o : Opcode) (ho : o.setsCc = true) : CompletesCc o.instr (resultOf · o) := by
  intro s rs1 rs2 rd h1 h2 hd
  obtain ⟨t, he, hw, -, hset, hrest⟩ :=
    exec_completes (namesOwnPair_of_even h1) (namesOwnPair_of_even h2) (namesOwnPair_of_even hd) o
  exact ⟨t, he, hw, hset ho, hrest⟩

/-- Settles O1. -/
theorem ordWritesBitwiseOr : Obligations.OrdWritesBitwiseOr := completesPlain .ord rfl

/-- Settles O2. -/
theorem ordccWritesOrAndSetsFlags : Obligations.OrdccWritesOrAndSetsFlags := completesCc .ordcc rfl

/-- Settles O3. -/
theorem ordnWritesOrWithComplement : Obligations.OrdnWritesOrWithComplement := completesPlain .ordn rfl

/-- Settles O4. -/
theorem ordnccWritesOrComplementSetsFlags : Obligations.OrdnccWritesOrComplementSetsFlags := completesCc .ordncc rfl

/-- Settles O5. -/
theorem xordccWritesXorAndSetsFlags : Obligations.XordccWritesXorAndSetsFlags := completesCc .xordcc rfl

/-- Settles O6. -/
theorem xnordWritesXnorByFormula : Obligations.XnordWritesXnorByFormula := completesPlain .xnord rfl

/-- Settles O7. -/
theorem xnordccWritesXnorAndSetsFlags : Obligations.XnordccWritesXnorAndSetsFlags := completesCc .xnordcc rfl

/-- Settles O8. -/
theorem anddWritesBitwiseAnd : Obligations.AnddWritesBitwiseAnd := completesPlain .andd rfl

/-- Settles O9. -/
theorem anddccWritesAndSetsFlags : Obligations.AnddccWritesAndSetsFlags := completesCc .anddcc rfl

/-- Settles O10. -/
theorem anddnClearsBitsOfSecond : Obligations.AnddnClearsBitsOfSecond := completesPlain .anddn rfl

/-- Settles O11. -/
theorem anddnccClearsBitsAndSetsFlags : Obligations.AnddnccClearsBitsAndSetsFlags := completesCc .anddncc rfl

/-- The pair of register 0 is zero where register 1 is (R14, R16). -/
theorem pairValue_zero {s : State} (h : s.readReg 1#5 = 0#32) : pairValue s 0#5 = 0#64 := by
  have h1 : s.readReg (0#5 + 1#5) = 0#32 := h
  rw [pairValue, h1, State.readReg_zero, ite_self]
  rfl

/-- Settles O13: each idiom is its instruction's own clause at an operand that makes the result simple. -/
theorem idiomsCopyComplementAndClear : Obligations.IdiomsCopyComplementAndClear := by
  intro s a d ha hd
  have h0 : EvenReg 0#5 := rfl
  refine ⟨fun h1 => ?_, fun h1 hx => ?_, ?_⟩
  · obtain ⟨t, he, hw, -⟩ := ordWritesBitwiseOr s a 0#5 d ha h0 hd
    exact ⟨t, he, by simpa [pairValue_zero h1] using hw⟩
  · obtain ⟨t, he, hw, -⟩ := xnordWritesXnorByFormula s a 0#5 d ha h0 hd
    exact ⟨t, he, by simpa [pairValue_zero h1, xnorBy, hx] using hw⟩
  · obtain ⟨t, he, hw, -⟩ := anddnClearsBitsOfSecond s a a d ha ha hd
    exact ⟨t, he, by simpa using hw⟩

/-- Whether the first register of an even pair is the high half (R17). -/
def evenIsHigh (c : Config) : Bool := decide (c.pairHighWord = .even)

/-- The two halves of an even pair's value are its two registers. -/
theorem pairValue_halves {s : State} {n : RegNum} (h : EvenReg n) :
    half (evenIsHigh s.cfg) (pairValue s n) = s.readReg n ∧
      half (!evenIsHigh s.cfg) (pairValue s n) = s.readReg (n + 1#5) := by
  have hhigh : firstIsHigh s.cfg.pairHighWord (pairAt n) = evenIsHigh s.cfg :=
    firstIsHigh_even (evenReg_iff.1 h)
  rw [← hhigh, ← pairRead_pairAt]
  exact ⟨s.firstHalf_pairRead (pairAt n), s.secondHalf_pairRead (pairAt n)⟩


/-! What Z tests, register by register (R23). -/

/-- The bits of `a` that are not in `b` are none exactly when every bit of `a` is in `b`. -/
theorem and_not_eq_zero_iff {a b : Word} : a &&& ~~~b = 0#32 ↔ a ||| b = b := by
  simp only [BitVec.eq_of_getElem_eq_iff, BitVec.getElem_and, BitVec.getElem_or, BitVec.getElem_not,
    BitVec.getElem_zero]
  refine forall_congr' fun k => forall_congr' fun hk => ?_
  cases a[k] <;> cases b[k] <;> decide

theorem not_eq_zero_iff {a : Word} : ~~~a = 0#32 ↔ a = 0xFFFFFFFF#32 := BitVec.not_eq_comm

theorem not_xor_eq_zero_iff {a b : Word} : ~~~(a ^^^ b) = 0#32 ↔ b = ~~~a := by
  rw [BitVec.not_xor_left, BitVec.xor_eq_zero_iff, eq_comm]

section ZeroFlag

variable {s : State} {a b d : RegNum} (ha : EvenReg a) (hb : EvenReg b) (hd : EvenReg d)

include ha hb hd

/-- A CC instruction on even numbers sets Z exactly when its result is zero in both halves, whatever that comes to. -/
theorem exec_cc_z (o : Opcode) (ho : o.setsCc = true) {test : Prop}
    (htest : half (evenIsHigh s.cfg) (resultOf s.cfg o (pairValue s a) (pairValue s b)) = 0#32 ∧
      half (!evenIsHigh s.cfg) (resultOf s.cfg o (pairValue s a) (pairValue s b)) = 0#32 ↔ test) :
    ∃ t, exec (o.instr a b d) s = .next t ∧ (t.icc.z = true ↔ test) := by
  obtain ⟨t, he, -, ⟨hz, -⟩, -⟩ := completesCc o ho s a b d ha hb hd
  exact ⟨t, he, hz.trans ((halves_zero (evenIsHigh s.cfg) _).trans htest)⟩

end ZeroFlag

/-- Settles O12: Z tests the result's two halves, and each half is the operation on one register of each pair. -/
theorem zeroFlagTestsOfCcInstructions : Obligations.ZeroFlagTestsOfCcInstructions := by
  intro s a b d ha hb hd
  obtain ⟨ha1, ha2⟩ := pairValue_halves (s := s) ha
  obtain ⟨hb1, hb2⟩ := pairValue_halves (s := s) hb
  refine ⟨exec_cc_z ha hb hd .ordcc rfl ?ordcc, exec_cc_z ha hb hd .ordncc rfl ?ordncc,
    exec_cc_z ha hb hd .xordcc rfl ?xordcc, ?xnordcc, exec_cc_z ha hb hd .anddcc rfl ?anddcc,
    exec_cc_z ha hb hd .anddncc rfl ?anddncc⟩
  case ordcc =>
    simp only [resultOf, half_or, ha1, ha2, hb1, hb2, BitVec.or_eq_zero_iff]
    tauto
  case ordncc =>
    simp only [resultOf, half_or, half_not, ha1, ha2, hb1, hb2, BitVec.or_eq_zero_iff, not_eq_zero_iff]
    tauto
  case xordcc => simp only [resultOf, half_xor, ha1, ha2, hb1, hb2, BitVec.xor_eq_zero_iff]
  case xnordcc =>
    obtain ⟨t, he, hz⟩ := exec_cc_z (s := s) ha hb hd .xnordcc rfl Iff.rfl
    refine ⟨t, he, fun hx => hz.trans ?_⟩
    simp only [resultOf, xnorBy, hx, if_true, half_not, half_xor, ha1, ha2, hb1, hb2, not_xor_eq_zero_iff]
  case anddcc => simp only [resultOf, half_and, ha1, ha2, hb1, hb2]
  case anddncc => simp only [resultOf, half_and, half_not, ha1, ha2, hb1, hb2, and_not_eq_zero_iff]

end Sys2Proof.Machine

/-! What holds of every instruction: its frame (R29), and what its result does not depend on (R17, R22, R37). -/

namespace Sys2Proof.Machine

open Sys2Proof.Claims

/-- Settles O14: the registers outside the resolved pair read as before, and only a CC instruction touches the flags. -/
theorem everyInstructionKeepsItsFrame : Obligations.EveryInstructionKeepsItsFrame := by
  intro i s t h
  refine ⟨?_, ?_, exec_advanced h, exec_restKept h⟩
  · obtain ⟨p1, p2, d, hops, rfl⟩ := exec_next h
    obtain ⟨-, -, hd⟩ := operands_pairs.1 hops
    refine ⟨d, hd, fun r hr1 hr2 => ?_⟩
    rw [afterOp_readReg_pair hd, if_neg hr1, if_neg hr2]
    split
    · subst r; rfl
    · rfl
  · intro hcc
    obtain ⟨p1, p2, d, -, rfl⟩ := exec_next h
    rw [hcc]
    exact afterOp_flagsKept ..

section WithCounters

/-- The state at other program counters. -/
def State.withCounters (p q : Word) (s : State) : State := { s with pc := p, npc := q }

variable (p q : Word) (s : State) (n : RegNum) (v : Word) (d : Pair) (res : DWord) (cc : Bool)

@[simp] theorem State.withCounters_cfg : (s.withCounters p q).cfg = s.cfg := rfl

@[simp] theorem State.pairRead_withCounters : (s.withCounters p q).pairRead d = s.pairRead d := rfl

@[simp] theorem State.writeReg_withCounters :
    (s.withCounters p q).writeReg n v = (s.writeReg n v).withCounters p q := by
  unfold State.writeReg; split <;> rfl

@[simp] theorem State.pairWrite_withCounters :
    (s.withCounters p q).pairWrite d res = (s.pairWrite d res).withCounters p q := by
  simp only [State.pairWrite, State.withCounters_cfg, State.writeReg_withCounters]; split <;> rfl

@[simp] theorem State.setZ64_withCounters :
    (s.withCounters p q).setZ64 res = (s.setZ64 res).withCounters p q := rfl

@[simp] theorem State.setNVC64_withCounters :
    (s.withCounters p q).setNVC64 res = (s.setNVC64 res).withCounters p q := by
  unfold State.setNVC64; rw [State.withCounters_cfg]; split <;> rfl

@[simp] theorem State.advance_withCounters :
    (s.withCounters p q).advance = s.advance.withCounters q (q + 4#32) := rfl

/-- An operation carries other counters along and advances them. -/
theorem afterOp_withCounters :
    afterOp cc d res (s.withCounters p q) = (afterOp cc d res s).withCounters q (q + 4#32) := by
  unfold afterOp; cases cc <;> simp

end WithCounters

/-- Settles O16: every operation an instruction is made of commutes with replacing the counters. -/
theorem countersDoNotInfluenceResults : Obligations.CountersDoNotInfluenceResults := by
  intro i s t p q h
  obtain ⟨p1, p2, d, hops, rfl⟩ := exec_next h
  rw [← State.withCounters, exec_of_operands (s := s.withCounters p q) hops, afterOp_withCounters]
  rfl

section Congr

variable {s s' : State} {cc : Bool} {d : Pair} {res res' : DWord}

/-- Two operations that start with the same registers and write the same halves leave the same registers. -/
theorem afterOp_readReg_congr {policy : OddPairPolicy} {n : RegNum} (hd : pairForm policy n = .pair d)
    (hx : s'.x = s.x) (h1 : firstHalf s'.cfg d res' = firstHalf s.cfg d res)
    (h2 : secondHalf s'.cfg d res' = secondHalf s.cfg d res) (r : RegNum) :
    (afterOp cc d res' s').readReg r = (afterOp cc d res s).readReg r := by
  rw [afterOp_readReg_pair hd, afterOp_readReg_pair hd, h1, h2, State.readReg_congr hx]

/-- Z after an operation depends on whether the result is zero, or on the old flags. -/
theorem afterOp_z_congr (hicc : s'.icc = s.icc) (hres : res' = 0#64 ↔ res = 0#64) :
    (afterOp cc d res' s').icc.z = (afterOp cc d res s).icc.z := by
  cases cc
  · rw [afterOp_icc_plain, afterOp_icc_plain, hicc]
  · rw [afterOp_z, afterOp_z, Bool.eq_iff_iff, beq_iff_eq, beq_iff_eq, hres]

variable (hp : s'.cfg.iccNvcPolicy = s.cfg.iccNvcPolicy) (hicc : s'.icc = s.icc) (hdraws : s'.draws = s.draws)

include hp hicc hdraws

/-- V after an operation does not depend on the result. -/
theorem afterOp_v_congr : (afterOp cc d res' s').icc.v = (afterOp cc d res s).icc.v := by
  cases cc
  · rw [afterOp_icc_plain, afterOp_icc_plain, hicc]
  · cases h : s.cfg.iccNvcPolicy <;> simp [afterOp, State.setNVC64, hp, h, hicc, hdraws]

/-- Nor does C. -/
theorem afterOp_c_congr : (afterOp cc d res' s').icc.c = (afterOp cc d res s).icc.c := by
  cases cc
  · rw [afterOp_icc_plain, afterOp_icc_plain, hicc]
  · cases h : s.cfg.iccNvcPolicy <;> simp [afterOp, State.setNVC64, hp, h, hicc, hdraws]

/-- N after an operation depends on the result under `v8like` only. -/
theorem afterOp_n_congr (hn : s.cfg.iccNvcPolicy ≠ .v8like ∨ res' = res) :
    (afterOp cc d res' s').icc.n = (afterOp cc d res s).icc.n := by
  cases cc
  · rw [afterOp_icc_plain, afterOp_icc_plain, hicc]
  · cases h : s.cfg.iccNvcPolicy with
    | v8like => simp [afterOp, State.setNVC64, hp, h, hn.resolve_left (not_not_intro h)]
    | _ => simp [afterOp, State.setNVC64, hp, h, hicc, hdraws]

end Congr

/-- Settles O17: the flags enter neither the operands nor the result, so registers and Z come out the same. -/
theorem conditionCodesAreNeverRead : Obligations.ConditionCodesAreNeverRead := by
  intro i s t f h
  obtain ⟨p1, p2, d, hops, rfl⟩ := exec_next h
  obtain ⟨-, -, hd⟩ := operands_pairs.1 hops
  refine ⟨_, exec_of_operands (s := { s with icc := f }) hops, fun r => ?_, ?_, ?_, fun hcc => ?_⟩
  · exact afterOp_readReg_congr (s := s) (s' := { s with icc := f }) hd rfl rfl rfl r
  · rw [afterOp_pc, afterOp_pc]
  · rw [afterOp_npc, afterOp_npc]
  · rw [hcc, afterOp_z, afterOp_z]; rfl

/-! The high half (R17): pairs of one parity have their high half on the same side, and every operation works half by
half, so swapping the sides swaps the halves of the result and shows in no register. -/

/-- Which side is the high half depends on the parity of the pair alone. -/
theorem firstIsHigh_congr {p q : Pair} (h : isOdd p.first = isOdd q.first) (high : PairHighWord) :
    firstIsHigh high p = firstIsHigh high q := by
  cases high <;> simp [firstIsHigh, h]

/-- The halves of a pair read, on the sides of another pair of the same parity, are its two registers. -/
theorem halves_pairRead {s : State} {p d : Pair} (h : isOdd p.first = isOdd d.first) :
    firstHalf s.cfg d (s.pairRead p) = s.readReg p.first ∧ secondHalf s.cfg d (s.pairRead p) = s.readReg p.second := by
  have hside := firstIsHigh_congr h s.cfg.pairHighWord
  rw [← s.firstHalf_pairRead p, ← s.secondHalf_pairRead p]
  simp only [firstHalf, secondHalf, hside]
  trivial

/-- One half of the result depends on the same halves of the operands. -/
theorem half_opFn_congr {c : Config} {o : Opcode} {high high' : Bool} {a a' b b' : DWord}
    (ha : half high' a' = half high a) (hb : half high' b' = half high b) :
    half high' (opFn c o a' b') = half high (opFn c o a b) := by
  cases o <;> cases h : c.xnorFormula <;> simp [opFn, xnor, h, ha, hb]

/-- The pairs of an instruction have one parity if, under `consecutive`, its numbers do. -/
theorem operands_one_parity {policy : OddPairPolicy} {a b d : RegNum} {p1 p2 pd : Pair}
    (h : operands policy a b d = .pairs p1 p2 pd)
    (hpar : policy = .consecutive → a.toNat % 2 = d.toNat % 2 ∧ b.toNat % 2 = d.toNat % 2) :
    isOdd p1.first = isOdd pd.first ∧ isOdd p2.first = isOdd pd.first := by
  have odd_congr : ∀ {m n : RegNum}, m.toNat % 2 = n.toNat % 2 → isOdd m = isOdd n := by decide
  obtain ⟨ha, hb, hd⟩ := operands_pairs.1 h
  rw [pairForm_parity ha, pairForm_parity hb, pairForm_parity hd]
  by_cases hc : policy = .consecutive
  · rw [odd_congr (hpar hc).1, odd_congr (hpar hc).2]; exact ⟨rfl, rfl⟩
  · simp [hc]

/-- The state under another `PAIR_HIGH_WORD`. -/
def State.withHighWord (h : PairHighWord) (s : State) : State := { s with cfg := { s.cfg with pairHighWord := h } }

/-- On pairs of one parity the result's halves are the same under either `PAIR_HIGH_WORD`. -/
theorem halves_result_withHighWord {s : State} {p1 p2 d : Pair} (h1 : isOdd p1.first = isOdd d.first)
    (h2 : isOdd p2.first = isOdd d.first) (o : Opcode) (h : PairHighWord) :
    firstHalf (s.withHighWord h).cfg d
        (opFn s.cfg o ((s.withHighWord h).pairRead p1) ((s.withHighWord h).pairRead p2)) =
      firstHalf s.cfg d (opFn s.cfg o (s.pairRead p1) (s.pairRead p2)) ∧
    secondHalf (s.withHighWord h).cfg d
        (opFn s.cfg o ((s.withHighWord h).pairRead p1) ((s.withHighWord h).pairRead p2)) =
      secondHalf s.cfg d (opFn s.cfg o (s.pairRead p1) (s.pairRead p2)) := by
  obtain ⟨ha, ha'⟩ := halves_pairRead (s := s) h1
  obtain ⟨hb, hb'⟩ := halves_pairRead (s := s) h2
  obtain ⟨ka, ka'⟩ := halves_pairRead (s := s.withHighWord h) h1
  obtain ⟨kb, kb'⟩ := halves_pairRead (s := s.withHighWord h) h2
  exact ⟨half_opFn_congr (ka.trans ha.symm) (kb.trans hb.symm),
    half_opFn_congr (ka'.trans ha'.symm) (kb'.trans hb'.symm)⟩

/-- Two values with the same halves are zero together. -/
theorem eq_zero_congr_halves {c c' : Config} {d : Pair} {v v' : DWord} (h1 : firstHalf c' d v' = firstHalf c d v)
    (h2 : secondHalf c' d v' = secondHalf c d v) : v' = 0#64 ↔ v = 0#64 := by
  rw [halves_zero (firstIsHigh c'.pairHighWord d) v', halves_zero (firstIsHigh c.pairHighWord d) v]
  exact and_congr (by rw [← firstHalf, ← firstHalf, h1]) (by rw [← secondHalf, ← secondHalf, h2])

/-- An odd pair reads the same under either `PAIR_HIGH_WORD` (R19). -/
theorem State.pairRead_withHighWord_of_odd {s : State} {p : Pair} (hp : isOdd p.first = true) (h : PairHighWord) :
    (s.withHighWord h).pairRead p = s.pairRead p := by
  rw [State.pairRead, State.pairRead, firstIsHigh_odd hp, firstIsHigh_odd hp]
  rfl

/-- Settles O18: the pairs have one parity, so the result's halves and with them the registers and Z are the same; N
can differ under `v8like` only, and an odd destination has its sides fixed. -/
theorem highHalfChoiceIsInvisible : Obligations.HighHalfChoiceIsInvisible := by
  intro i s t h hexec hpar
  obtain ⟨p1, p2, d, hops, rfl⟩ := exec_next hexec
  obtain ⟨-, -, hd⟩ := operands_pairs.1 hops
  obtain ⟨h1, h2⟩ := operands_one_parity hops hpar
  obtain ⟨hfirst, hsecond⟩ := halves_result_withHighWord (s := s) h1 h2 i.opcode h
  refine ⟨_, exec_of_operands (s := s.withHighWord h) hops, afterOp_readReg_congr hd rfl hfirst hsecond,
    afterOp_z_congr rfl (eq_zero_congr_halves hfirst hsecond), afterOp_v_congr rfl rfl rfl, afterOp_c_congr rfl rfl rfl,
    fun hn => afterOp_n_congr rfl rfl rfl (hn.imp_right ?_), ?_, ?_⟩
  · rintro ⟨hc, hodd⟩
    have hodd_d : isOdd d.first = true := by
      rw [pairForm_parity hd, hc, not_evenReg_iff.1 hodd]; rfl
    rw [State.pairRead_withHighWord_of_odd (h1.trans hodd_d), State.pairRead_withHighWord_of_odd (h2.trans hodd_d)]
    rfl
  · rw [afterOp_pc, afterOp_pc]; rfl
  · rw [afterOp_npc, afterOp_npc]; rfl

/-- Under `refuse` only even numbers are accepted, and every policy resolves those the same way (R19). -/
theorem operands_of_refuse {a b d : RegNum} {p1 p2 pd : Pair} (h : operands .refuse a b d = .pairs p1 p2 pd)
    (policy : OddPairPolicy) : operands policy a b d = .pairs p1 p2 pd := by
  obtain ⟨ha, hb, hd⟩ := operands_pairs.1 h
  have even {n : RegNum} {p : Pair} (hn : pairForm .refuse n = .pair p) : pairForm policy n = .pair p := by
    have ho := pairForm_refuse_pair hn
    rw [pairForm_even ho] at hn ⊢
    exact hn
  exact operands_pairs.2 ⟨even ha, even hb, even hd⟩

/-- Settles O19: the word has even operands and no stray bit, so no policy bears on its decoding, and only N, V and C on
its effect. -/
theorem refusingDefaultsHoldForEverySetting : Obligations.RefusingDefaultsHoldForEverySetting := by
  intro s w i odd nvc unused hodd hunused h
  obtain ⟨hop, hi, haj, ho, hun, ⟨p1, p2, d, hf⟩, hrs1, hrs2, hrd⟩ := (decodeWord_instr _ w i).1 h
  rw [hodd] at hf
  have hops := operands_of_refuse hf
  refine ⟨(decodeWord_instr _ w i).2 ⟨hop, hi, haj, ho, .inl (hun.resolve_right (by simp [hunused])),
    ⟨p1, p2, d, hops _⟩, hrs1, hrs2, hrd⟩, ?_⟩
  rw [← hrs1, ← hrs2, ← hrd] at hops
  obtain ⟨-, -, hd⟩ := operands_pairs.1 (hops .refuse)
  refine ⟨_, _, exec_of_operands (hops _), exec_of_operands (hops _), afterOp_readReg_congr hd rfl rfl rfl,
    afterOp_z_congr rfl Iff.rfl, ?_, ?_⟩
  · rw [afterOp_pc, afterOp_pc]
  · rw [afterOp_npc, afterOp_npc]

/-- Settles O20. -/
theorem registerZeroIsHardwired : Obligations.RegisterZeroIsHardwired := fun _ _ => ⟨rfl, rfl⟩

end Sys2Proof.Machine

/-! Odd register numbers (R19, R75): refused, aligned down, or naming the pair they start. -/

namespace Sys2Proof.Machine

open Sys2Proof.Claims

/-- Settles O21: under `refuse` the first odd field, in the order of the test, is the one the operands stop at. -/
theorem oddFieldIsRefused : Obligations.OddFieldIsRefused := by
  intro i s hp
  have odd {n : RegNum} (h : ¬EvenReg n) : pairForm s.cfg.oddPairPolicy n = .refuse :=
    pairForm_eq_refuse.2 (.inl ⟨hp, h⟩)
  have even {n : RegNum} (h : EvenReg n) := namesOwnPair_of_even (c := s.cfg) h
  exact ⟨fun hd => exec_of_refuse (operands_refuse_rd (odd hd)),
    fun hd h1 => exec_of_refuse (operands_refuse_rs1 (even hd) (odd h1)),
    fun hd h1 h2 => exec_of_refuse (operands_refuse_rs2 (even hd) (even h1) (odd h2))⟩

/-- Under `align_down` a number and the same number with its low bit cleared name one pair. -/
theorem pairForm_alignDown (n : RegNum) : pairForm .alignDown (n &&& 0x1E#5) = pairForm .alignDown n := by
  revert n; decide

/-- Settles O23: the numbers enter an operation through the pairs they name alone. -/
theorem oddFieldIsAlignedDown : Obligations.OddFieldIsAlignedDown := by
  intro o rs1 rs2 rd s hp
  have hops : operands s.cfg.oddPairPolicy (rs1 &&& 0x1E#5) (rs2 &&& 0x1E#5) (rd &&& 0x1E#5) =
      operands s.cfg.oddPairPolicy rs1 rs2 rd := by
    simp only [operands, hp, pairForm_alignDown]
  simp only [exec_eq_pairOp, pairOp, instr_opcode, instr_rs1, instr_rs2, instr_rd, hops]

/-- A refused field with no field trapping makes the operands refuse. -/
theorem operands_exists_refuse {policy : OddPairPolicy} {a b d : RegNum} (hp : policy ≠ .trapIllegal)
    (h : pairForm policy a = .refuse ∨ pairForm policy b = .refuse ∨ pairForm policy d = .refuse) :
    ∃ f, operands policy a b d = .refuse f := by
  cases ho : operands policy a b d with
  | refuse f => exact ⟨f, rfl⟩
  | trap => exact absurd (operands_eq_trap.1 ho).1 hp
  | pairs p1 p2 pd =>
    obtain ⟨ha, hb, hd⟩ := operands_pairs.1 ho
    simp [ha, hb, hd] at h

/-- Settles O24: numbers other than 31 name their own pairs, where every operation completes; 31 is refused. -/
theorem oddFieldNamesConsecutivePair : Obligations.OddFieldNamesConsecutivePair := by
  intro o rs1 rs2 rd s hp
  refine ⟨fun h1 h2 hd => ?_, fun h31 => ?_⟩
  · exact exec_completes (namesOwnPair_of_consecutive hp h1) (namesOwnPair_of_consecutive hp h2)
      (namesOwnPair_of_consecutive hp hd) o
  · have refused_31 {n : RegNum} (h : n = 31#5) : pairForm s.cfg.oddPairPolicy n = .refuse :=
      pairForm_eq_refuse.2 (.inr ⟨hp, h⟩)
    obtain ⟨f, hf⟩ := operands_exists_refuse (by simp [hp]) (h31.imp refused_31 (Or.imp refused_31 refused_31))
    exact ⟨f, exec_of_refuse (by simpa using hf)⟩

end Sys2Proof.Machine

/-! Decoding by the masks (R46, R50 to R54). -/

namespace Sys2Proof

open Claims

section SingleBits

variable (w : Word)

/-- Bit 13 is the field i. -/
theorem getLsbD_13 : w.getLsbD 13 = true ↔ iField w ≠ 0#1 := by
  have hbit : w.getLsbD 13 = (iField w).getLsbD 0 := by simp [iField, field]
  have one_bit : ∀ b : BitVec 1, b.getLsbD 0 = true ↔ b ≠ 0#1 := by decide
  rw [hbit, one_bit]

/-- Bit 5 is the AJIT bit. -/
theorem getLsbD_5 : w.getLsbD 5 = true ↔ ajitField w = 1#1 := by
  have hbit : w.getLsbD 5 = (ajitField w).getLsbD 0 := by simp [ajitField, field]
  have one_bit : ∀ b : BitVec 1, b.getLsbD 0 = true ↔ b = 1#1 := by decide
  rw [hbit, one_bit]

end SingleBits

/-- Settles O29: the operands and the op3 of a decoded word are fields of it. -/
theorem decodedOperandsAreTheFieldBits : Obligations.DecodedOperandsAreTheFieldBits := by
  intro c w i h
  obtain ⟨-, -, -, hy, hrs1, hrs2, hrd⟩ := spellsUpToUnused_iff.1 (spells_of_decodeWord h).1
  refine ⟨?_, ?_, ?_, op3Field w, hy, field_toNat ..⟩
  · rw [hrs1, rs1Field_toNat]
  · rw [hrs2, rs2Field_toNat]
  · rw [hrd, rdField_toNat]

/-- Settles O31: no word that spells an instruction has bit 13 set. -/
theorem immediateFormsAreOutOfScope : Obligations.ImmediateFormsAreOutOfScope := by
  refine ⟨fun c w hw => decodeWord_outOfScope.2 fun i h => ?_, fun c i w h => ?_⟩
  · obtain ⟨-, hi, -⟩ := spellsUpToUnused_iff.1 h
    exact (getLsbD_13 w).1 hw hi
  · obtain ⟨-, hi, -⟩ := spellsUpToUnused_iff.1 (spells_of_encodeWord h).1
    exact Bool.eq_false_iff.2 fun hw => (getLsbD_13 w).1 hw hi

/-- Settles O32: a word that spells an instruction has op = 2 and the AJIT bit set. -/
theorem baseWordsAreOutOfScope : Obligations.BaseWordsAreOutOfScope := by
  intro c w hw
  refine decodeWord_outOfScope.2 fun i h => ?_
  obtain ⟨hop, -, haj, -⟩ := spellsUpToUnused_iff.1 h
  obtain hw | hw := hw
  · exact hw (by rw [← opField_toNat, hop]; rfl)
  · rw [(getLsbD_5 w).2 haj] at hw
    exact nomatch hw

/-- Settles O34: under `ignore` the unused field is not looked at; under `refuse` it is looked at once the word is known
to spell an instruction, which is not a matter of its unused bits. -/
theorem strayUnusedBitsByPolicy : Obligations.StrayUnusedBitsByPolicy := by
  refine fun c w => ⟨fun hp => ?_, fun hp hun h => ?_⟩
  · rw [and_clearUnused, decodeWord_fields]
    nth_rw 1 [word_eq_fields w, decodeWord_fields]
    simp [hp]
  · have hclear : w &&& 0xFFFFE03F#32 &&& 0xFFFFE03F#32 = w &&& 0xFFFFE03F#32 := by
      rw [BitVec.and_assoc, BitVec.and_self]
    rw [Ne, decodeWord_outOfScope, not_forall_not] at h
    obtain ⟨i, hi⟩ := h
    rw [SpellsUpToUnused, hclear] at hi
    exact decodeWord_unusedBits hi (by simp [UnusedAccepted, hp, hun])

/-! The match words (R49): with the mask of op, op3, i and the AJIT bit, a word is one of them exactly when it spells an
instruction. -/

/-- The eleven op3 values, XNORDCC's at its default (R49, R50). -/
def matchOp3s : List Op3 :=
  [0b000010#6, 0b010010#6, 0b000110#6, 0b010110#6, 0b010011#6, 0b000111#6, 0b010111#6, 0b000001#6, 0b010001#6,
    0b000101#6, 0b010101#6]

theorem matchWords_eq : matchWords = matchOp3s.map (fun y => wordOfFields 2#2 0#5 y 0#5 0#1 0#7 1#1 0#5) := by decide

/-- A word built from fields is a match word when they are those of the format and its op3 is one of the eleven. -/
theorem wordOfFields_mem_matchWords {op : BitVec 2} {y : Op3} {i aj : BitVec 1} {un : BitVec 7} :
    wordOfFields op 0#5 y 0#5 i un aj 0#5 ∈ matchWords ↔
      op = 2#2 ∧ i = 0#1 ∧ aj = 1#1 ∧ un = 0#7 ∧ y ∈ matchOp3s := by
  simp only [matchWords_eq, List.mem_map, wordOfFields_inj]
  constructor
  · rintro ⟨y', hy, rfl, -, rfl, -, rfl, rfl, rfl, -⟩
    exact ⟨rfl, rfl, rfl, rfl, hy⟩
  · rintro ⟨rfl, rfl, rfl, rfl, hy⟩
    exact ⟨y, hy, by simp⟩

theorem groupMask_mem_matchWords {w : Word} : w &&& 0xC1F82020#32 ∈ matchWords ↔
    opField w = 2#2 ∧ iField w = 0#1 ∧ ajitField w = 1#1 ∧ op3Field w ∈ matchOp3s := by
  rw [and_groupMask, wordOfFields_mem_matchWords]
  simp

/-- The mask that takes the unused bits in asks that they be zero as well. -/
theorem matchMask_mem_matchWords {w : Word} : w &&& 0xC1F83FE0#32 ∈ matchWords ↔
    w &&& 0xC1F82020#32 ∈ matchWords ∧ w &&& 0x00001FC0#32 = 0#32 := by
  rw [and_matchMask, wordOfFields_mem_matchWords, groupMask_mem_matchWords, and_unusedMask_eq_zero]
  tauto

/-- With XNORDCC at its default op3 or absent, an operation's op3 is one of the eleven. -/
theorem op3_mem_matchOp3s {c : Config} {o : Opcode} {y : Op3} (hc : c.xnordccOp3 = some 0x17#6 ∨ c.xnordccOp3 = none)
    (h : o.op3 c = some y) : y ∈ matchOp3s := by
  cases o <;> simp only [Opcode.op3] at h
  case xnordcc =>
    obtain hc | hc := hc <;> rw [hc] at h <;> cases h
    decide
  all_goals cases h; decide

/-- With XNORDCC at its default op3, each of the eleven is an operation's. -/
theorem exists_op3_of_mem {c : Config} {y : Op3} (hc : c.xnordccOp3 = some 0x17#6) (h : y ∈ matchOp3s) :
    ∃ o : Opcode, o.op3 c = some y := by
  simp only [matchOp3s, List.mem_cons, List.not_mem_nil, or_false] at h
  obtain rfl | rfl | rfl | rfl | rfl | rfl | rfl | rfl | rfl | rfl | rfl := h
  exacts [⟨.ord, rfl⟩, ⟨.ordcc, rfl⟩, ⟨.ordn, rfl⟩, ⟨.ordncc, rfl⟩, ⟨.xordcc, rfl⟩, ⟨.xnord, rfl⟩, ⟨.xnordcc, hc⟩,
    ⟨.andd, rfl⟩, ⟨.anddcc, rfl⟩, ⟨.anddn, rfl⟩, ⟨.anddncc, rfl⟩]

/-- A word that spells an instruction is one of the match words under the group mask. -/
theorem mem_matchWords_of_spells {c : Config} {w : Word} {i : Instr}
    (hc : c.xnordccOp3 = some 0x17#6 ∨ c.xnordccOp3 = none) (h : SpellsUpToUnused c w i) :
    w &&& 0xC1F82020#32 ∈ matchWords := by
  obtain ⟨hop, hi, haj, hy, -⟩ := spellsUpToUnused_iff.1 h
  exact groupMask_mem_matchWords.2 ⟨hop, hi, haj, op3_mem_matchOp3s hc hy⟩

/-- A match word spells an instruction, whose operands are its register fields. -/
theorem spells_of_mem_matchWords {c : Config} {w : Word} (hc : c.xnordccOp3 = some 0x17#6)
    (h : w &&& 0xC1F82020#32 ∈ matchWords) :
    ∃ i, SpellsUpToUnused c w i ∧ i.rs1 = rs1Field w ∧ i.rs2 = rs2Field w ∧ i.rd = rdField w := by
  obtain ⟨hop, hi, haj, hy⟩ := groupMask_mem_matchWords.1 h
  obtain ⟨o, ho⟩ := exists_op3_of_mem hc hy
  refine ⟨o.instr (rs1Field w) (rs2Field w) (rdField w), spellsUpToUnused_iff.2 ⟨hop, hi, haj, ?_⟩, ?_⟩ <;> simp [ho]

/-- The match word of an XNORDCC that is absent spells nothing: no other operation has its op3. -/
theorem not_spells_absent {c : Config} {w : Word} {i : Instr} (hc : c.xnordccOp3 = none)
    (hw : w &&& 0xC1F82020#32 = 0x80B80020#32) : ¬SpellsUpToUnused c w i := by
  intro h
  obtain ⟨-, -, -, hy, -⟩ := spellsUpToUnused_iff.1 h
  have hy17 : op3Field w = 0x17#6 := by
    rw [and_groupMask] at hw
    simpa using congrArg op3Field (hw.trans (by decide : _ = wordOfFields 2#2 0#5 0x17#6 0#5 0#1 0#7 1#1 0#5))
  rw [hy17] at hy
  cases ho : i.opcode <;> simp [ho, Opcode.op3, hc] at hy

/-- Settles O33: a word outside the match words spells nothing; the count runs through the 64 op3 values. -/
theorem unassignedOp3ValuesAreRefused : Obligations.UnassignedOp3ValuesAreRefused := by
  refine ⟨fun c w hc hw => ?_, fun c w hc hw => ?_, by decide, by decide⟩
  · exact decodeWord_outOfScope.2 fun i h => hw (mem_matchWords_of_spells hc h)
  · exact decodeWord_outOfScope.2 fun i => not_spells_absent hc hw

section ParityMasks

variable {w : Word}

/-- A word has no bit in common with the mask of one bit exactly when that bit is clear. -/
theorem and_twoPow_eq_zero {k : Nat} (hk : k < 32) : w &&& BitVec.twoPow 32 k = 0#32 ↔ w.getLsbD k = false := by
  have hne : BitVec.twoPow 32 k ≠ 0#32 := fun h => by
    simpa [hk] using congrArg (BitVec.getLsbD · k) h
  rw [BitVec.and_twoPow]
  cases w.getLsbD k <;> simp [hne]

/-- Bit 25 is the low bit of rd. -/
theorem rdMask_eq_zero : w &&& 0x02000000#32 = 0#32 ↔ EvenReg (rdField w) := by
  have hbit : Machine.isOdd (rdField w) = w.getLsbD 25 := by simp [Machine.isOdd, rdField, field]
  rw [Machine.evenReg_iff, hbit]
  exact and_twoPow_eq_zero (k := 25) (by decide)

/-- Bit 14 is the low bit of rs1. -/
theorem rs1Mask_eq_zero : w &&& 0x00004000#32 = 0#32 ↔ EvenReg (rs1Field w) := by
  have hbit : Machine.isOdd (rs1Field w) = w.getLsbD 14 := by simp [Machine.isOdd, rs1Field, field]
  rw [Machine.evenReg_iff, hbit]
  exact and_twoPow_eq_zero (k := 14) (by decide)

/-- Bit 0 is the low bit of rs2. -/
theorem rs2Mask_eq_zero : w &&& 0x00000001#32 = 0#32 ↔ EvenReg (rs2Field w) := by
  have hbit : Machine.isOdd (rs2Field w) = w.getLsbD 0 := by simp [Machine.isOdd, rs2Field, field]
  rw [Machine.evenReg_iff, hbit]
  exact and_twoPow_eq_zero (k := 0) (by decide)

theorem rdRs1Mask_eq_zero : w &&& 0x02004000#32 = 0#32 ↔ EvenReg (rdField w) ∧ EvenReg (rs1Field w) := by
  rw [show 0x02004000#32 = 0x02000000#32 ||| 0x00004000#32 by decide, BitVec.and_or_distrib_left,
    BitVec.or_eq_zero_iff, rdMask_eq_zero, rs1Mask_eq_zero]

/-- The second mask of R51: all three low bits. -/
theorem oddMask_eq_zero : w &&& 0x02004001#32 = 0#32 ↔
    EvenReg (rdField w) ∧ EvenReg (rs1Field w) ∧ EvenReg (rs2Field w) := by
  rw [show 0x02004001#32 = 0x02004000#32 ||| 0x00000001#32 by decide, BitVec.and_or_distrib_left,
    BitVec.or_eq_zero_iff, rdRs1Mask_eq_zero, rs2Mask_eq_zero, and_assoc]

end ParityMasks

/-- Settles O35: under the defaults an accepted word spells an instruction, has no stray bit, and has even operands,
which is what the two masks test. -/
theorem acceptedWordsAreThoseOfTheMasks : Obligations.AcceptedWordsAreThoseOfTheMasks := by
  intro w
  rw [matchMask_mem_matchWords, oddMask_eq_zero]
  constructor
  · rintro ⟨i, h⟩
    obtain ⟨hspell, hun, p1, p2, d, hops⟩ := spells_of_decodeWord h
    obtain ⟨-, -, -, -, hrs1, hrs2, hrd⟩ := spellsUpToUnused_iff.1 hspell
    obtain ⟨h1, h2, hd⟩ := Machine.operands_pairs.1 hops
    have even {n : RegNum} {p : Machine.Pair} (h : Machine.pairForm .refuse n = .pair p) : EvenReg n :=
      Machine.evenReg_iff.2 (Machine.pairForm_refuse_pair h)
    exact ⟨⟨mem_matchWords_of_spells (.inl rfl) hspell, hun.resolve_left (by decide)⟩, hrd ▸ even hd, hrs1 ▸ even h1,
      hrs2 ▸ even h2⟩
  · rintro ⟨⟨hmem, hun⟩, hd, h1, h2⟩
    obtain ⟨i, hspell, hrs1, hrs2, hrd⟩ := spells_of_mem_matchWords (c := Config.default) rfl hmem
    rw [Machine.evenReg_iff, ← hrd] at hd
    rw [Machine.evenReg_iff, ← hrs1] at h1
    rw [Machine.evenReg_iff, ← hrs2] at h2
    exact ⟨i, decodeWord_of_spells hspell (.inr hun) rfl (Machine.operands_even h1 h2 hd)⟩

/-- Settles O25. -/
theorem specWordsDecodeAsListed : Obligations.SpecWordsDecodeAsListed := by
  unfold Obligations.SpecWordsDecodeAsListed; decide

/-- Settles O26. -/
theorem macroF4BuildsTheMatchWords : Obligations.MacroF4BuildsTheMatchWords := by
  unfold Obligations.MacroF4BuildsTheMatchWords; decide

end Sys2Proof

/-! The outcome of a step for every fetched word (R51, R71 to R73, R75). -/

namespace Sys2Proof.Machine

open Sys2Proof.Claims

section Fetched

variable {s : State} {w : Word} (hs : Running s) (hw : s.fetch = some w)

include hs hw

/-- A word that spells no instruction is refused as out of scope. -/
theorem step_outOfScope (h : ∀ i, ¬SpellsUpToUnused s.cfg w i) : step s = .refused (.outOfScopeWord s.pc w) := by
  rw [step_of_fetch hs hw, decodeWord_outOfScope.2 h]; rfl

variable {i : Instr} (hi : SpellsUpToUnused s.cfg w i)

include hi

theorem step_unusedBits (hu : ¬UnusedAccepted s.cfg w) : step s = .refused (.unusedBitsNonZero s.pc w) := by
  rw [step_of_fetch hs hw, decodeWord_unusedBits hi hu]; rfl

variable (hu : UnusedAccepted s.cfg w)

include hu

theorem step_oddPair {f : PairField} (hf : operands s.cfg.oddPairPolicy i.rs1 i.rs2 i.rd = .refuse f) :
    step s = .refused (.oddPairRegister f s.pc (some w)) := by
  rw [step_of_fetch hs hw, decodeWord_oddPair hi hu hf]; rfl

theorem step_trap (hf : operands s.cfg.oddPairPolicy i.rs1 i.rs2 i.rd = .trap) :
    step s = .fault (.illegalInstruction 0x02#8) := by
  rw [step_of_fetch hs hw, decodeWord_illegal hi hu hf]; rfl

/-- With resolved operands the spelled instruction runs and completes, where no word spells two. -/
theorem step_completes (hc : s.cfg.op3Distinct = true) {p1 p2 d : Pair}
    (hf : operands s.cfg.oddPairPolicy i.rs1 i.rs2 i.rd = .pairs p1 p2 d) :
    decodeWord s.cfg w = .instr i ∧ ∃ t, step s = exec i s ∧ exec i s = .next t := by
  have hd := decodeWord_of_spells hi hu hc hf
  exact ⟨hd, _, step_of_decodeWord hs hw hd, exec_of_operands hf⟩

end Fetched

/-- A number that is not unpaired, and even under `trap_illegal`, names a pair. -/
theorem pairForm_of_not_unpaired {c : Config} {n : RegNum} (h : ¬Unpaired c n)
    (ht : c.oddPairPolicy = .trapIllegal → EvenReg n) : ∃ p, pairForm c.oddPairPolicy n = .pair p := by
  refine pairForm_exists_pair (fun hr => h (pairForm_eq_refuse.1 hr)) fun htrap => ?_
  obtain ⟨hp, ho⟩ := pairForm_eq_trap.1 htrap
  exact not_evenReg_iff.2 ho (ht hp)

/-- Where some number is unpaired no number traps, so one that is not unpaired names a pair. -/
theorem pairForm_of_unpaired {c : Config} {m n : RegNum} (hm : Unpaired c m) (h : ¬Unpaired c n) :
    ∃ p, pairForm c.oddPairPolicy n = .pair p := by
  refine pairForm_of_not_unpaired h fun ht => ?_
  obtain ⟨hp, -⟩ | ⟨hp, -⟩ := hm <;> rw [hp] at ht <;> exact nomatch ht

/-- Settles O53: the decoder's answer decides the outcome; the operands stop at the first unpaired field. -/
theorem stepOutcomesByPolicy : Obligations.StepOutcomesByPolicy := by
  intro s w hs hw
  refine ⟨step_outOfScope hs hw, fun i hi => ⟨step_unusedBits hs hw hi, fun hu => ⟨?_, ?_, ?_, ?_⟩⟩⟩
  · exact fun hd => step_oddPair hs hw hi hu (operands_refuse_rd (pairForm_eq_refuse.2 hd))
  · intro hd h1
    obtain ⟨pd, hd⟩ := pairForm_of_unpaired h1 hd
    exact step_oddPair hs hw hi hu (operands_refuse_rs1 hd (pairForm_eq_refuse.2 h1))
  · intro hd h1 h2
    obtain ⟨pd, hd⟩ := pairForm_of_unpaired h2 hd
    obtain ⟨p1, h1⟩ := pairForm_of_unpaired h2 h1
    exact step_oddPair hs hw hi hu (operands_refuse_rs2 hd h1 (pairForm_eq_refuse.2 h2))
  · intro hd h1 h2 heven hc
    obtain ⟨pd, hd⟩ := pairForm_of_not_unpaired hd fun ht => (heven ht).1
    obtain ⟨p1, h1⟩ := pairForm_of_not_unpaired h1 fun ht => (heven ht).2.1
    obtain ⟨p2, h2⟩ := pairForm_of_not_unpaired h2 fun ht => (heven ht).2.2
    exact (step_completes hs hw hi hu hc (operands_pairs.2 ⟨h1, h2, hd⟩)).2

/-- Settles O42: under the defaults the masks say which word spells an instruction, which bits are stray and which
fields are odd. -/
theorem stepOutcomesUnderTheDefaults : Obligations.StepOutcomesUnderTheDefaults := by
  intro s w hcfg hs hw
  have hxnordcc : s.cfg.xnordccOp3 = some 0x17#6 := by rw [hcfg]; rfl
  have hrefuse : s.cfg.oddPairPolicy = .refuse := by rw [hcfg]; rfl
  have odd {n : RegNum} (h : ¬EvenReg n) : pairForm s.cfg.oddPairPolicy n = .refuse :=
    pairForm_eq_refuse.2 (.inl ⟨hrefuse, h⟩)
  have even {n : RegNum} (h : EvenReg n) := namesOwnPair_of_even (c := s.cfg) h
  have spelled (h : w &&& 0xC1F83FE0#32 ∈ matchWords) : ∃ i, SpellsUpToUnused s.cfg w i ∧ UnusedAccepted s.cfg w ∧
      i.rs1 = rs1Field w ∧ i.rs2 = rs2Field w ∧ i.rd = rdField w := by
    obtain ⟨hmem, hun⟩ := matchMask_mem_matchWords.1 h
    obtain ⟨i, hi, hregs⟩ := spells_of_mem_matchWords hxnordcc hmem
    exact ⟨i, hi, .inr hun, hregs⟩
  simp only [ne_eq, rdMask_eq_zero, rs1Mask_eq_zero, rs2Mask_eq_zero, rdRs1Mask_eq_zero, oddMask_eq_zero]
  refine ⟨fun h => ?_, fun h hun => ?_, fun h hd => ?_, fun h hd h1 => ?_, fun h hd1 h2 => ?_, fun h hall => ?_⟩
  · exact step_outOfScope hs hw fun i hi => h (mem_matchWords_of_spells (.inl hxnordcc) hi)
  · obtain ⟨i, hi, -⟩ := spells_of_mem_matchWords hxnordcc h
    exact step_unusedBits hs hw hi (by simp [UnusedAccepted, hcfg, Config.default, hun])
  · obtain ⟨i, hi, hu, hrs1, hrs2, hrd⟩ := spelled h
    rw [← hrd] at hd
    exact step_oddPair hs hw hi hu (operands_refuse_rd (odd hd))
  · obtain ⟨i, hi, hu, hrs1, hrs2, hrd⟩ := spelled h
    rw [← hrd] at hd
    rw [← hrs1] at h1
    exact step_oddPair hs hw hi hu (operands_refuse_rs1 (even hd) (odd h1))
  · obtain ⟨i, hi, hu, hrs1, hrs2, hrd⟩ := spelled h
    rw [← hrd, ← hrs1] at hd1
    rw [← hrs2] at h2
    exact step_oddPair hs hw hi hu (operands_refuse_rs2 (even hd1.1) (even hd1.2) (odd h2))
  · obtain ⟨i, hi, hu, hrs1, hrs2, hrd⟩ := spelled h
    rw [← hrd, ← hrs1, ← hrs2] at hall
    obtain ⟨hd, h1, h2⟩ := hall
    have hops := operands_pairs.2 ⟨even h1, even h2, even hd⟩
    obtain ⟨hdec, t, hstep, hexec⟩ := step_completes hs hw hi hu (by rw [hcfg]; rfl) hops
    exact ⟨i, t, hdec, hstep, hexec⟩

/-- Settles O22: under `trap_illegal` the operands of an instruction with an odd field trap, for `exec` and for the
decoder. -/
theorem oddFieldRaisesUnderTrapPolicy : Obligations.OddFieldRaisesUnderTrapPolicy := by
  intro s hp i hodd
  have htrap : operands s.cfg.oddPairPolicy i.rs1 i.rs2 i.rd = .trap := by
    simp only [not_evenReg_iff] at hodd
    exact operands_eq_trap.2 ⟨hp, hodd⟩
  refine ⟨exec_of_trap htrap, fun w hs hw hi hu => ?_⟩
  have hstep := step_trap hs hw hi hu htrap
  obtain ⟨-, hfaulted, -⟩ := statesWithoutAStep { s with faulted := true }
  obtain ⟨-, hnone, -⟩ := hfaulted hs.1 rfl
  exact ⟨hstep, successor_of_step hstep, hnone⟩

end Sys2Proof.Machine

/-! Fetch (R31 to R33), the placed word, and runs (R21, R88). -/

namespace Sys2Proof.Machine

open Sys2Proof.Claims

/-- A memory read with a byte missing gives nothing. -/
theorem memRead_eq_none {m : Memory} {n k : Nat} {a : Word} (hk : k < n)
    (h : Memory.read m (a + BitVec.ofNat 32 k).toNat = none) : memRead m a n = none := by
  induction n generalizing a k with
  | zero => omega
  | succ n ih =>
    cases k with
    | zero =>
      rw [BitVec.add_zero] at h
      simp [memRead, h]
    | succ k =>
      have hnext : a + BitVec.ofNat 32 (k + 1) = a + 1#32 + BitVec.ofNat 32 k := by
        rw [Nat.add_comm, BitVec.ofNat_add, BitVec.add_assoc]
      rw [hnext] at h
      rw [memRead, ih (by omega) h]
      cases Memory.read m a.toNat <;> rfl

/-- The word of the four bytes listed at an aligned address, the first byte highest (R33). -/
theorem textAt_of_read {m : Memory} {a : Word} {b0 b1 b2 b3 : Byte} (ha : isAligned a = true)
    (h0 : Memory.read m a.toNat = some b0) (h1 : Memory.read m (a.toNat + 1) = some b1)
    (h2 : Memory.read m (a.toNat + 2) = some b2) (h3 : Memory.read m (a.toNat + 3) = some b3) :
    textAt m a = some (wordOfBytes b0 b1 b2 b3) := by
  have e1 := toNat_add_of_aligned ha (k := 1) (by decide)
  have e2 := toNat_add_of_aligned ha (k := 2) (by decide)
  have e3 := toNat_add_of_aligned ha (k := 3) (by decide)
  have a2 : a + 1#32 + 1#32 = a + 2#32 := by rw [BitVec.add_assoc]; rfl
  have a3 : a + 2#32 + 1#32 = a + 3#32 := by rw [BitVec.add_assoc]; rfl
  simp only [textAt, ha, if_true, memRead, a2, a3, e1, e2, e3, h0, h1, h2, h3]

/-- Settles O40: the addresses of an aligned word do not wrap. -/
theorem fetchIsBigEndian : Obligations.FetchIsBigEndian := by
  intro s hpc
  have ha : isAligned s.pc = true := isAligned_iff.2 hpc
  refine ⟨fun b0 b1 b2 b3 => textAt_of_read ha, fun k hk h => ?_⟩
  rw [← toNat_add_of_aligned ha hk] at h
  simp [State.fetch, textAt, memRead_eq_none hk h]

/-- The bytes of a word make it up again. -/
theorem wordOfBytes_extract (w : Word) : wordOfBytes (w.extractLsb' 24 8) (w.extractLsb' 16 8) (w.extractLsb' 8 8)
    (w.extractLsb' 0 8) = w := by
  unfold wordOfBytes
  apply BitVec.eq_of_getLsbD_eq
  intro k hk
  simp only [BitVec.getLsbD_append, BitVec.getLsbD_extractLsb']
  interval_cases k <;> simp

/-- A placed word is the one fetched. -/
theorem fetch_placeWord {s : State} (h : s.Inv) (w : Word) : (s.placeWord w).fetch = some w := by
  obtain ⟨hwf, ha, -⟩ := h
  rw [State.fetch, State.placeWord_text, State.placeWord_pc, bytesOfWord, textAt_memWrite _ _ _ _ hwf ha,
    wordOfBytes_extract]

/-- The state with a word placed is running: its marks are clear and its `END_PC` is elsewhere. -/
theorem running_placeWord (s : State) (w : Word) : Running (s.placeWord w) := by
  refine ⟨rfl, rfl, ?_⟩
  show (if s.endPc = some s.pc then none else s.endPc) ≠ some s.pc
  split
  · exact nofun
  · assumption

/-- A table row of 32 bits is its word. -/
theorem tableWord_32 (w : Nat) : tableWord 32 w = BitVec.ofNat 32 w :=
  BitVec.eq_of_toNat_eq (by simp [tableWord])

/-- Settles O50. -/
theorem placedWordRunsNext : Obligations.PlacedWordRunsNext := by
  intro s w i hinv hd
  rw [State.withFetchWord, tableWord_32]
  exact step_of_decodeWord (running_placeWord ..) (fetch_placeWord hinv _) hd

/-- A state is sequential when `npc` is the word after `pc` (R86). -/
theorem launchSequential_iff {s : State} : s.launchSequential = true ↔ s.npc = s.pc + 4#32 := beq_iff_eq

theorem launchNotRefused_iff {s : State} : s.launchNotRefused = true ↔ s.refused = false ∧ s.faulted = false := by
  simp [State.launchNotRefused]

/-- Whatever state it came from, a state after an instruction is sequential (R21). -/
theorem launchSequential_of_advanced {s t : State} (h : Advanced s t) : t.launchSequential = true := by
  obtain ⟨hpc, hnpc⟩ := h
  rw [launchSequential_iff, hpc, hnpc]

/-- One word, and then `k` words, further is `k + 1` words further. -/
theorem add_four_add (a : Word) (k : Nat) :
    a + 4#32 + BitVec.ofNat 32 (4 * k) = a + BitVec.ofNat 32 (4 * (k + 1)) := by
  rw [BitVec.add_assoc, Nat.mul_add, Nat.add_comm (4 * k), BitVec.ofNat_add]

/-- Settles O51, by induction on the number of steps. -/
theorem sequentialRunsAdvanceByFour : Obligations.SequentialRunsAdvanceByFour := by
  intro k
  induction k with
  | zero =>
    intro s t hseq h
    obtain rfl := runs_zero.1 h
    exact ⟨(BitVec.add_zero _).symm, hseq⟩
  | succ k ih =>
    intro s t hseq h
    obtain ⟨u, hstep, hrun⟩ := runs_succ.1 h
    obtain ⟨-, -, -, w, i, -, -, hexec⟩ := step_next hstep
    have hadv := exec_advanced hexec
    obtain ⟨hpc, hseq'⟩ := ih u t (launchSequential_of_advanced hadv) hrun
    exact ⟨by rw [hpc, hadv.1, launchSequential_iff.1 hseq, add_four_add], hseq'⟩

/-- Settles O52, by induction on the number of words: the first runs, and the rest stand before the state it leaves. -/
theorem straightLineCodeRunsToItsEnd : Obligations.StraightLineCodeRunsToItsEnd := by
  intro k
  induction k with
  | zero =>
    intro s hmarks _ _
    exact ⟨s, runs_zero.2 rfl, (BitVec.add_zero _).symm, fun hend => by simp [State.isFinal, hend, hmarks]⟩
  | succ k ih =>
    intro s hmarks hseq hcode
    obtain ⟨hr, hf⟩ := launchNotRefused_iff.1 hmarks
    obtain ⟨hend, w, i, htext, hd⟩ := hcode 0 (by omega)
    simp only [Nat.mul_zero, BitVec.add_zero] at hend htext
    obtain ⟨u, hexec⟩ := exec_of_decodeWord hd
    have hstep : step s = .next u := (step_of_decodeWord ⟨hr, hf, hend⟩ htext hd).trans hexec
    have hadv := exec_advanced hexec
    obtain ⟨-, hcfg, hendPc, hr', hf'⟩ := exec_restKept hexec
    have hpc : u.pc = s.pc + 4#32 := hadv.1.trans (launchSequential_iff.1 hseq)
    obtain ⟨t, hrun, htpc, hfinal⟩ := ih u (launchNotRefused_iff.2 ⟨hr'.trans hr, hf'.trans hf⟩)
      (launchSequential_of_advanced hadv) fun j hj => by
        rw [hpc, add_four_add, hcfg, hendPc, exec_text hexec]
        exact hcode (j + 1) (by omega)
    exact ⟨t, runs_succ.2 ⟨u, hstep, hrun⟩, by rw [htpc, hpc, add_four_add], hendPc ▸ hfinal⟩

end Sys2Proof.Machine

/-! The assembler's names (R15, R56 to R58). -/

namespace Sys2Proof

/-- A mnemonic names one operation. -/
theorem find?_mnemonic (o : Opcode) : opcodeOrder.find? (fun o' => o'.mnemonic = o.mnemonic) = some o := by
  cases o <;> decide

/-- Settles O38. -/
theorem assemblerNamesRoundTrip : Obligations.AssemblerNamesRoundTrip := by
  refine ⟨fun i => ?_, ?_, by decide, by decide, by decide⟩
  · rw [assemble, find?_mnemonic, Option.map_some, Machine.instr_eta]
  · decide

end Sys2Proof
